-- ==== Sys2Proof/Word.lean ====
section
/-! DEFINITION. The word types of SHC (00_scope.md R6, R8): 64-bit datapath values, bytes, and
28-bit byte offsets in SHC's window (20_memory.md R60). -/

namespace Sys2Proof

/-- A 64-bit datapath value; `+` on it is the `+64` of rule R8. -/
abbrev Word := BitVec 64

/-- A byte; bit 0 is the first message bit in it (rule R6). -/
abbrev Byte := BitVec 8

/-- A byte offset in SHC's window of 2^28 bytes (rule R60). -/
abbrev Offset := BitVec 28

end Sys2Proof
end

