-- ==== Sys2Proof/Machine/Bytes.lean ====
section
/-! DEFINITION. Sums, byte strings and bits (00_scope.md R6, R7, R8). -/

namespace Sys2Proof.Machine

/-- `Σ64_{i < n} f i`, the sum modulo 2^64 of rule R8. -/
def sigma64 : Nat → (Nat → Word) → Word
  | 0, _ => 0
  | n + 1, f => sigma64 n f + f n

/-- Byte `t` of a word, `w[8t+7:8t]` (rule R7). -/
def byteOf (w : Word) (t : Nat) : Byte := w.extractLsb' (8 * t) 8

/-- `LE64(w)` of rule R7. -/
def le64 (w : Word) : List Byte := (List.range 8).map (byteOf w)

/-- `Σ_{t<8} f t · 2^(8t)`: the word whose byte `t` is `f t` (rule R7). -/
def wordOf (f : Nat → Byte) : Word := sigma64 8 fun t => (f t).zeroExtend 64 <<< (8 * t)

/-- `U64(S[0..8))` of rule R7; bytes past the end of a shorter string count as 0. -/
def u64 (bs : List Byte) : Word := wordOf fun t => bs.getD t 0

/-- `bit(X, i) = (X[i div 8] >> (i mod 8)) & 1` of rule R7. -/
def bitOf (x : List Byte) (i : Nat) : Bool := (x.getD (i / 8) 0).getLsbD (i % 8)

/-- `zeros(L)` of rule R7. -/
def zeros (l : Nat) : List Byte := List.replicate l 0

end Sys2Proof.Machine
end

