-- ==== Sys2Proof/Config.lean ====
section
/-! DEFINITION. What an instance fixes (00_scope.md R2, R4, R5) and the values the spec leaves
unspecified (93_implementation_defined.md I2, I3, I4), as constants without a body. -/

namespace Sys2Proof

/-- The parameters of an SHC instance, with the bounds of rule R2: an instance outside them cannot
be built (93_implementation_defined.md I18), so no such value exists. -/
structure Params where
  /-- `N`, the output size in 64-bit words. -/
  n : Nat
  /-- `M`, the matrix column count, equal to the input width in bits. -/
  m : Nat
  /-- `LUT_IMPL` of rule R5. -/
  lutImpl : Bool
  /-- `SHC_BASE`, the block's place in the platform's address space: OPEN in the spec (D5, I8). -/
  base : Nat
  n_pos : 1 ≤ n
  m_mod : m % 64 = 0
  m_low : 64 * n + 128 ≤ m
  m_high : m ≤ 32768
  deriving DecidableEq, Repr

/-- The reference instance of rule R4, `N = 10`, `M = 1280`. `LUT_IMPL = 0` and `SHC_BASE = 0` are
DESIGN CHOICE (log 3, log 9): R4 and D5 leave both open. -/
def Params.reference : Params :=
  ⟨10, 1280, false, 0, by decide, by decide, by decide, by decide⟩

/-- The unspecified value of `MAT` word `t` after the hard reset numbered `r`, until the host writes
it (70_reset_and_hazards.md R203, 93_implementation_defined.md I3): a free value (log 4). -/
opaque Config.matUnwritten (r t : Nat) : Word

/-- The `d`-th unspecified value returned by a read of COUNT, BUFLEN or OUT while `BUSY = 1`
(20_memory.md R70, 93_implementation_defined.md I2): a free value (log 5). -/
opaque Config.busyRead (d : Nat) : Word

/-- The unspecified content of lookup-table word `i` while no COMMIT has built the table
(10_state.md R33, 93_implementation_defined.md I4): a free value (log 6). -/
opaque Config.lutUnspecified (i : Nat) : Word

end Sys2Proof
end

