-- ==== Sys2Proof/Machine/Geometry.lean ====
section
/-! DEFINITION. The sizes derived from an instance's parameters (00_scope.md R3) and the address
map (20_memory.md R60, R62). -/

namespace Sys2Proof

/-- `InputLen = M/8` bytes (rule R3). -/
def Params.inputLen (p : Params) : Nat := p.m / 8

/-- `OutputLen = Size = 8·N` bytes (rule R3). -/
def Params.outputLen (p : Params) : Nat := 8 * p.n

/-- `BlockSize = B = M/8 − 8·N` bytes (rule R3). -/
def Params.blockSize (p : Params) : Nat := p.m / 8 - 8 * p.n

/-- The matrix has `N·M` words (rule R3). -/
def Params.matWords (p : Params) : Nat := p.n * p.m

/-- The lookup table has `M/4` slots for each output word (10_state.md R33). -/
def Params.lutSlots (p : Params) : Nat := p.m / 4

/-- The lookup table has `N·(M/4)·16` words (rule R3). -/
def Params.lutWords (p : Params) : Nat := p.n * p.lutSlots * 16

/-- `len ≤ M/8`, the bound of 30_encoding.md R92. -/
def Params.lenFits (p : Params) (len : BitVec 16) : Bool := decide (len.toNat ≤ p.inputLen)

namespace Machine

/-- The first offset of the OUT window (rule R62). -/
def outBase : Nat := 0x1000

/-- The first offset of the IN window (rule R62). -/
def inBase : Nat := 0x2000

/-- The first offset of the SALT window (rule R62). -/
def saltBase : Nat := 0x3000

/-- The first offset of the MAT window (rule R62). -/
def matBase : Nat := 0x8000000

/-- The names an offset can have in the address map of rule R62. -/
inductive Region where
  | id | param | ctrl | status | errcode | cmd | count | buflen
  | out | inp | salt | mat
  deriving DecidableEq, Repr

end Machine

/-- Whether an offset lies in a window of `size` bytes that starts at `start`. -/
def Params.within (start size off : Nat) : Bool := decide (start ≤ off) && decide (off < start + size)

/-- The table of rule R62: first offset, size used and name of each mapped range. -/
def Params.addressMap (p : Params) : List (Nat × Nat × Machine.Region) :=
  [(0x000, 8, .id), (0x008, 8, .param), (0x010, 8, .ctrl), (0x018, 8, .status),
   (0x020, 8, .errcode), (0x028, 8, .cmd), (0x030, 8, .count), (0x038, 8, .buflen),
   (Machine.outBase, p.outputLen, .out), (Machine.inBase, p.inputLen, .inp),
   (Machine.saltBase, p.blockSize, .salt), (Machine.matBase, 8 * p.matWords, .mat)]

/-- What an offset names, `none` if it is unmapped (rule R62). -/
def Params.region (p : Params) (off : Nat) : Option Machine.Region :=
  (p.addressMap.find? fun e => Params.within e.1 e.2.1 off).map fun e => e.2.2

/-- Whether an offset lies in one of the four array windows, where `mem` may list a byte. -/
def Params.inArray (p : Params) (off : Nat) : Bool :=
  Params.within Machine.outBase p.outputLen off || Params.within Machine.inBase p.inputLen off
    || Params.within Machine.saltBase p.blockSize off
    || Params.within Machine.matBase (8 * p.matWords) off

/-- The offset that a platform address has in SHC's window at `SHC_BASE` (rule R60), `none` if the
address lies outside the window. -/
def Params.offsetOf (p : Params) (addr : Nat) : Option Offset :=
  if p.base ≤ addr ∧ addr < p.base + 2 ^ 28 then some (BitVec.ofNat 28 (addr - p.base)) else none

end Sys2Proof
end

