-- ==== Sys2Proof/Syntax.lean ====
section
/-! DEFINITION. The commands of SHC, one constructor per row of spec/opcode_table.json
(30_encoding.md section 3). -/

namespace Sys2Proof

/-- An SHC command. Only HWRITE has an operand field (30_encoding.md R92). -/
inductive Instr where
  /-- `OP = 0x00`, 40_compressor.md R119. -/
  | nop
  /-- `OP = 0x01`, 40_compressor.md R120. -/
  | commit
  /-- `OP = 0x02`, 40_compressor.md R121. -/
  | compress
  /-- `OP = 0x03`, 41_hash_pipeline.md R144. -/
  | hreset
  /-- `OP = 0x04`, 41_hash_pipeline.md R145; `len` is the field `LEN = c[31:16]`. -/
  | hwrite (len : BitVec 16)
  /-- `OP = 0x05`, 41_hash_pipeline.md R151. -/
  | hsum
  deriving DecidableEq, Repr

end Sys2Proof
end

