-- ==== Sys2Proof/Decode.lean ====
section
/-! DEFINITION. The command decoder and encoder (30_encoding.md R90 to R95). -/

namespace Sys2Proof

/-- Why a 64-bit word is no command: rules R94 and R93, in this order (rule R175). -/
inductive CommandError where
  /-- `OP ≥ 0x06` (rule R94). -/
  | illegalOpcode
  /-- `RSV0`, `RSV1`, or `LEN` of a command other than HWRITE, is not zero (rule R93). -/
  | reservedField
  deriving DecidableEq, Repr

/-- Why a string of bytes is no command. -/
inductive DecodeError where
  /-- A command is exactly 8 bytes long (rule R95). -/
  | wrongLength
  /-- The 8 bytes form a word that is no command. -/
  | word (e : CommandError)
  deriving DecidableEq, Repr

/-- `OP = c[7:0]` (rule R90). -/
def opField (c : Word) : BitVec 8 := c.extractLsb' 0 8

/-- `RSV0 = c[15:8]` (rule R90). -/
def rsv0Field (c : Word) : BitVec 8 := c.extractLsb' 8 8

/-- `LEN = c[31:16]` (rule R90). -/
def lenField (c : Word) : BitVec 16 := c.extractLsb' 16 16

/-- `RSV1 = c[63:32]` (rule R90). -/
def rsv1Field (c : Word) : BitVec 32 := c.extractLsb' 32 32

/-- The opcode that takes a length (rule R92). -/
def opHwrite : BitVec 8 := 0x04

/-- The reserved-field check of rule R93, as 40_compressor.md R111 writes it. -/
def reservedClear (c : Word) : Bool :=
  rsv0Field c == 0 && rsv1Field c == 0 && (opField c == opHwrite || lenField c == 0)

/-- The opcode map of 30_encoding.md section 3 (rule R91: only `OP` chooses the command). -/
def commandOfOp (op : BitVec 8) (len : BitVec 16) : Option Instr :=
  if op = 0x00 then some .nop
  else if op = 0x01 then some .commit
  else if op = 0x02 then some .compress
  else if op = 0x03 then some .hreset
  else if op = 0x04 then some (.hwrite len)
  else if op = 0x05 then some .hsum
  else none

/-- The command a 64-bit word stands for: ILLEGAL_OPCODE is checked before RESERVED_FIELD
(rules R91, R93, R94; 40_compressor.md R111). -/
def decodeWord (c : Word) : Except CommandError Instr :=
  match commandOfOp (opField c) (lenField c) with
  | none => .error .illegalOpcode
  | some i => if reservedClear c then .ok i else .error .reservedField

/-- The command that a string of bytes holds, least significant byte first (rules R61, R95). -/
def decode (bs : List Byte) : Except DecodeError Instr :=
  if bs.length = 8 then
    match decodeWord (Machine.u64 bs) with
    | .ok i => .ok i
    | .error e => .error (.word e)
  else .error .wrongLength

/-- The opcode of a command (30_encoding.md section 3). -/
def opcodeOf : Instr → BitVec 8
  | .nop => 0x00
  | .commit => 0x01
  | .compress => 0x02
  | .hreset => 0x03
  | .hwrite _ => 0x04
  | .hsum => 0x05

/-- The `LEN` field of a command: 0 but for HWRITE (rule R90). -/
def lenOf : Instr → BitVec 16
  | .nop => 0
  | .commit => 0
  | .compress => 0
  | .hreset => 0
  | .hwrite len => len
  | .hsum => 0

/-- The command word: `OP`, `LEN`, and zeros in `RSV0` and `RSV1` (rule R90). -/
def encodeWord (i : Instr) : Word := (0 : BitVec 32) ++ lenOf i ++ (0 : BitVec 8) ++ opcodeOf i

/-- The 8 bytes of the command word, as a host stores it (rule R61). -/
def encode (i : Instr) : List Byte := Machine.le64 (encodeWord i)

/-- What the decoder reads from a table word of `nbits` bits whose other bits are 0. -/
def decodeTableWord (nbits w : Nat) : Option Instr :=
  if nbits ≤ 64 then
    match decode (Machine.le64 (BitVec.ofNat 64 (w % 2 ^ nbits))) with
    | .ok i => some i
    | .error _ => none
  else none

end Sys2Proof
end

