-- ==== Sys2Proof/Machine/State.lean ====
section
/-! DEFINITION. The state of SHC (10_state.md, all of it), the reasons a step can stop, and the
state after reset (70_reset_and_hazards.md R201). -/

namespace Sys2Proof.Machine

/-- SHC raises no fault: every misuse the spec names is recorded in STATUS and ERRCODE and the
machine goes on (60_exceptions.md R170, R172), so this type has no value. Nothing raises it (safe: see
log 20). -/
inductive Fault where
  deriving DecidableEq, Repr

/-- Why a step has no meaning. -/
inductive Refusal where
  /-- An instruction that has no meaning yet; raised by `exec` alone. Safe. -/
  | notModelled (mnemonic : String)
  /-- The engine finds a pending word that is no command: acceptance (40_compressor.md R111) lets no
  such word in, so no run reaches it (log 13). Raised by the engine's step. Safe. -/
  | pendingNotACommand (e : CommandError)
  deriving DecidableEq, Repr

/-- The error codes of 60_exceptions.md R170; the reserved codes are never raised and have no
constructor (93_implementation_defined.md I11; log 19). -/
inductive ErrorCode where
  | none | illegalOpcode | reservedField | busy | notLocked | locked | badLen
  | badAccess | badAddress | readOnly
  deriving DecidableEq, Repr

/-- What the outside world can do next (00_scope.md R10): a host access by platform address and
width in bytes, a hard reset, or letting the engine complete its pending command. Several bus
masters are one stream of accesses (log 17). -/
inductive Event where
  /-- `MemRead(addr, size)` (20_memory.md R67). -/
  | read (addr size : Nat)
  /-- `MemWrite(addr, size, v)` (20_memory.md R68). -/
  | write (addr size : Nat) (v : Word)
  /-- `rst_n` goes low (70_reset_and_hazards.md R200). -/
  | hardReset
  /-- The engine's completion falls here (40_compressor.md R110). -/
  | complete
  deriving DecidableEq, Repr

/-- The bus response of an access (60_exceptions.md R177): OKAY or ERROR, and the data. -/
structure BusResponse where
  okay : Bool
  data : Word
  deriving DecidableEq, Repr

/-- The bytes listed in SHC's window, keyed by byte offset, in the canonical form `Memory.wf`
(log 7). -/
abbrev Memory := List Host.Cell

/-- The state of SHC (10_state.md). `STATUS.BUSY`, `irq`, `ID`, `PARAM`, `COUNT` and `BUFLEN` are
views computed from it. -/
structure State where
  /-- The instance's build-time parameters, which no step changes (00_scope.md R2). -/
  params : Params
  /-- `CTRL.IE_DONE` (10_state.md R23). -/
  ieDone : Bool
  /-- `CTRL.IE_ERR` (10_state.md R23). -/
  ieErr : Bool
  /-- `STATUS.DONE` (10_state.md R24). -/
  done : Bool
  /-- `STATUS.ERR` (10_state.md R24). -/
  err : Bool
  /-- `STATUS.ERR_MULTI` (10_state.md R24). -/
  errMulti : Bool
  /-- `STATUS.LOCKED` (10_state.md R24). -/
  locked : Bool
  /-- `ERRCODE.CODE` (10_state.md R25). -/
  errCode : ErrorCode
  /-- `ERRCODE.INFO` (10_state.md R25). -/
  errInfo : BitVec 32
  /-- The arrays OUT, IN, SALT and MAT (10_state.md R29 to R32), by byte offset. -/
  mem : Memory
  /-- The lookup table, word `(k·(M/4) + c)·16 + v` being `LUT[k][c][v]` (10_state.md R33). -/
  lut : List Word
  /-- The chaining value `H` (10_state.md R34). -/
  chain : List Byte
  /-- The pending buffer `buf` (10_state.md R35). -/
  buf : List Byte
  /-- The byte counter `count` (10_state.md R36). -/
  count : Word
  /-- The engine's command register `pending` (10_state.md R37). -/
  pending : Option Word
  /-- The model's own: what the outside world does next (log 1). -/
  events : List Event
  /-- The model's own: the bus response of the latest access (log 8). -/
  response : Option BusResponse
  /-- The model's own: how many unspecified reads there have been (log 5). -/
  busyReads : Nat
  /-- The model's own: how many hard resets there have been since power-on (log 4). -/
  hardResets : Nat
  deriving DecidableEq, Repr

/-- What a step does next: it has a next state, it runs a command, or it refuses. -/
inductive Move where
  | advance (s : State)
  | run (i : Instr) (s : State)
  | refuse (r : Refusal)
  deriving DecidableEq, Repr

/-- The state of an instance right after a hard reset (70_reset_and_hazards.md R201), with the
model's own fields at their first values (log 22). -/
def State.resetFor (p : Params) : State where
  params := p
  ieDone := false
  ieErr := false
  done := false
  err := false
  errMulti := false
  locked := false
  errCode := .none
  errInfo := 0
  mem := []
  lut := []
  chain := List.replicate (8 * p.n) 0
  buf := []
  count := 0
  pending := none
  events := []
  response := none
  busyReads := 0
  hardResets := 0

/-- The reference instance right after reset (70_reset_and_hazards.md R201; log 3). -/
def State.reset : State := State.resetFor Params.reference

end Sys2Proof.Machine
end

