-- ==== Sys2Proof/Machine/Flags.lean ====
section
/-! DEFINITION. The status flags, the register words made of them, and the interrupt output
(10_state.md R22 to R25, R28, R37 to R39; 60_exceptions.md R170, R179; logs 14 and 15). -/

namespace Sys2Proof.Machine

/-- The byte of an error code in `ERRCODE.CODE` (60_exceptions.md R170). -/
def ErrorCode.toByte : ErrorCode → Byte
  | .none => 0x00
  | .illegalOpcode => 0x01
  | .reservedField => 0x02
  | .busy => 0x03
  | .notLocked => 0x04
  | .locked => 0x05
  | .badLen => 0x06
  | .badAccess => 0x10
  | .badAddress => 0x11
  | .readOnly => 0x12

/-- `STATUS.BUSY`: 1 exactly when `pending` is not empty (10_state.md R37). -/
def State.busy (s : State) : Bool := s.pending.isSome

/-- The constant `ID` (10_state.md R22). -/
def idWord : Word := 0x0000000053484331

/-- The constant `PARAM` (10_state.md R22). -/
def paramWord (p : Params) : Word :=
  BitVec.ofNat 16 p.blockSize ++ (0 : BitVec 15) ++ BitVec.ofBool p.lutImpl
    ++ BitVec.ofNat 16 (p.m / 64) ++ BitVec.ofNat 16 p.n

/-- `CTRL` as it reads: SRST and the reserved bits are 0 (10_state.md R23). -/
def State.ctrlWord (s : State) : Word :=
  (0 : BitVec 62) ++ BitVec.ofBool s.ieErr ++ BitVec.ofBool s.ieDone

/-- `STATUS` as it reads (10_state.md R24). -/
def State.statusWord (s : State) : Word :=
  (0 : BitVec 59) ++ BitVec.ofBool s.locked ++ BitVec.ofBool s.errMulti ++ BitVec.ofBool s.err
    ++ BitVec.ofBool s.done ++ BitVec.ofBool s.busy

/-- `ERRCODE` as it reads (10_state.md R25). -/
def State.errcodeWord (s : State) : Word := s.errInfo ++ (0 : BitVec 24) ++ s.errCode.toByte

/-- `BUFLEN` as it reads while idle (10_state.md R28). -/
def State.buflenWord (s : State) : Word := (0 : BitVec 48) ++ BitVec.ofNat 16 s.buf.length

/-- The level interrupt output `irq` (10_state.md R38, 60_exceptions.md R179). -/
def State.irq (s : State) : Bool := (s.done && s.ieDone) || (s.err && s.ieErr)

end Sys2Proof.Machine
end

