-- ==== Sys2Proof/Machine/Ops.lean ====
section
/-! DEFINITION. The named operations over SHC's memory and registers: the canonical memory, error
entry and error return (60_exceptions.md R172, R180), command completion (40_compressor.md R110) and
the two resets (70_reset_and_hazards.md R200 to R204). -/

namespace Sys2Proof.Machine

/-! ### Memory -/

/-- What an unlisted offset reads as: 0 in OUT, IN and SALT, their reset contents
(70_reset_and_hazards.md R201); no value in MAT, whose words a hard reset leaves unspecified (R203).
A MAT byte is listed exactly when it was written since the hard reset (log 7). -/
def Memory.unlisted (a : Nat) : Option Byte := if a < matBase then some 0 else none

/-- The listed byte at an offset. -/
def Memory.lookup : Memory → Nat → Option Byte
  | [], _ => none
  | (b, v) :: m, a => if a = b then some v else Memory.lookup m a

/-- List byte `v` at offset `a`, in order. -/
def Memory.insert : Memory → Nat → Byte → Memory
  | [], a, v => [(a, v)]
  | (b, w) :: m, a, v =>
    if a < b then (a, v) :: (b, w) :: m
    else if a = b then (a, v) :: m
    else (b, w) :: Memory.insert m a v

/-- Take offset `a` off the list. -/
def Memory.erase (m : Memory) (a : Nat) : Memory := m.filter fun c => c.1 != a

/-- Write one byte, keeping the canonical form: a byte equal to what the unlisted offset reads as is
not listed. -/
def Memory.writeByte (m : Memory) (a : Nat) (v : Byte) : Memory :=
  if Memory.unlisted a = some v then Memory.erase m a else Memory.insert m a v

/-- Write a string of bytes from offset `a` up. -/
def Memory.storeBytes : Memory → Nat → List Byte → Memory
  | m, _, [] => m
  | m, a, v :: vs => Memory.storeBytes (Memory.writeByte m a v) (a + 1) vs

/-- Offsets strictly rising, all above `lo`. -/
def Memory.risingFrom : Nat → Memory → Bool
  | _, [] => true
  | lo, (a, _) :: m => decide (lo ≤ a) && Memory.risingFrom (a + 1) m

/-- The canonical form: offsets strictly rising, and no entry equal to what the unlisted offset
reads as. -/
def Memory.wf (m : Memory) : Bool :=
  Memory.risingFrom 0 m && m.all fun c => Memory.unlisted c.1 != some c.2

/-- The matrix part of the memory, which a soft reset keeps (70_reset_and_hazards.md R202, R203). -/
def Memory.matrixPart (m : Memory) : Memory := m.filter fun c => decide (matBase ≤ c.1)

/-- The value of an unlisted byte: 0 in OUT, IN and SALT; in MAT a byte of the word's unspecified
value of this hard reset (70_reset_and_hazards.md R203; log 4). -/
def State.unlistedByte (s : State) (a : Nat) : Byte :=
  match Memory.unlisted a with
  | some v => v
  | none => byteOf (Config.matUnwritten s.hardResets ((a - matBase) / 8)) ((a - matBase) % 8)

/-- One byte of SHC's arrays, by offset. -/
def State.readByte (s : State) (a : Nat) : Byte :=
  match Memory.lookup s.mem a with
  | some v => v
  | none => s.unlistedByte a

/-- `n` bytes from offset `a` up. -/
def State.readBytes (s : State) (a n : Nat) : List Byte :=
  (List.range n).map fun j => s.readByte (a + j)

/-- The 64-bit word at offset `a`, little-endian (20_memory.md R61). -/
def State.loadWord (s : State) (a : Nat) : Word := wordOf fun t => s.readByte (a + t)

/-- Store a string of bytes from offset `a` up. -/
def State.storeBytes (s : State) (a : Nat) (vs : List Byte) : State :=
  { s with mem := Memory.storeBytes s.mem a vs }

/-- Store a 64-bit word at offset `a`, little-endian (20_memory.md R61). -/
def State.storeWord (s : State) (a : Nat) (v : Word) : State := s.storeBytes a (le64 v)

/-! ### Errors -/

/-- `raise Error(code, info)` of 60_exceptions.md R172: the first error is recorded, a later one
only sets ERR_MULTI, and nothing else changes. -/
def State.raise (s : State) (code : ErrorCode) (info : BitVec 32) : State :=
  if s.err then { s with errMulti := true }
  else { s with err := true, errCode := code, errInfo := info }

/-- The return from an error (60_exceptions.md R180): ERR, ERR_MULTI and ERRCODE are cleared
together. -/
def State.clearError (s : State) : State :=
  { s with err := false, errMulti := false, errCode := .none, errInfo := 0 }

/-! ### Bus responses -/

/-- The OKAY response with data `v` (60_exceptions.md R177). -/
def State.respondOkay (s : State) (v : Word) : State := { s with response := some ⟨true, v⟩ }

/-- The ERROR response, whose data is 0 (60_exceptions.md R177). -/
def State.respondError (s : State) : State := { s with response := some ⟨false, 0⟩ }

/-- An access error (60_exceptions.md R171): the error is recorded with the offset as INFO, and the
response is ERROR. -/
def State.accessError (s : State) (code : ErrorCode) (off : Offset) : State :=
  (s.raise code (off.zeroExtend 32)).respondError

/-! ### Completion -/

/-- The last two lines of `complete()` in 40_compressor.md R110: `pending` empties, so BUSY
clears, and DONE is set. -/
def State.complete (s : State) : State := { s with pending := none, done := true }

/-! ### Resets -/

/-- A soft reset (70_reset_and_hazards.md R202, R204): the state of R201, but MAT is kept. -/
def State.softReset (s : State) : State :=
  { State.resetFor s.params with
    mem := Memory.matrixPart s.mem
    events := s.events
    response := s.response
    busyReads := s.busyReads
    hardResets := s.hardResets }

/-- A hard reset (70_reset_and_hazards.md R201): MAT too is lost, and its words take fresh
unspecified values (R203). -/
def State.hardReset (s : State) : State :=
  { State.resetFor s.params with
    events := s.events
    busyReads := s.busyReads
    hardResets := s.hardResets + 1 }

end Sys2Proof.Machine
end

