-- ==== Sys2Proof/Machine/Operands.lean ====
section
/-! DEFINITION. The commands' operands: the arrays as byte strings, the matrix and lookup-table
words, and HWRITE's bytes (10_state.md R29 to R33; 20_memory.md R61, R63; 30_encoding.md R92). -/

namespace Sys2Proof.Machine

/-- `OUT[0..8N)` (10_state.md R29). -/
def State.outBytes (s : State) : List Byte := s.readBytes outBase s.params.outputLen

/-- `IN[0..M/8)` (10_state.md R30). -/
def State.inBytes (s : State) : List Byte := s.readBytes inBase s.params.inputLen

/-- `SALT[0..B)` (10_state.md R31). -/
def State.saltBytes (s : State) : List Byte := s.readBytes saltBase s.params.blockSize

/-- `MAT[t]`, the word at offset `0x800_0000 + 8t` (20_memory.md R63). -/
def State.matWord (s : State) (t : Nat) : Word := s.loadWord (matBase + 8 * t)

/-- `A_word[k][i] = MAT[k·M + i]` (20_memory.md R63). -/
def State.matEntry (s : State) (k i : Nat) : Word := s.matWord (k * s.params.m + i)

/-- Bit `A[row][i]` of the bit-matrix view of 20_memory.md R63; no command reads it. -/
def State.matBit (s : State) (row i : Nat) : Bool := (s.matEntry (row / 64) i).getLsbD (row % 64)

/-- The place of `LUT[k][c][v]` in the table (10_state.md R33). -/
def lutIndex (p : Params) (k c v : Nat) : Nat := (k * p.lutSlots + c) * 16 + v

/-- `LUT[k][c][v]` (10_state.md R33); a word that no COMMIT has built is unspecified (log 6). -/
def State.lutEntry (s : State) (k c v : Nat) : Word :=
  match s.lut[lutIndex s.params k c v]? with
  | some w => w
  | none => Config.lutUnspecified (lutIndex s.params k c v)

/-- `IN[0..len)`, the bytes that HWRITE `len` appends (30_encoding.md R92, 41_hash_pipeline.md
R145). No accepted `len` is above `M/8` (log 12). -/
def State.hwriteBytes (s : State) (len : BitVec 16) : List Byte := s.inBytes.take len.toNat

end Sys2Proof.Machine
end

