-- ==== Sys2Proof/WellFormed.lean ====
section
/-! DEFINITION. The one check on a command's operands: HWRITE's length (30_encoding.md R92). -/

namespace Sys2Proof

/-- `len ≤ M/8` for HWRITE (30_encoding.md R92); the other commands have no operand field. -/
def Instr.wellFormed (p : Params) : Instr → Bool
  | .nop => true
  | .commit => true
  | .compress => true
  | .hreset => true
  | .hwrite len => p.lenFits len
  | .hsum => true

end Sys2Proof
end

