-- ==== Sys2Proof/Machine/Bus.lean ====
section
/-! DEFINITION. The host's accesses (20_memory.md R65 to R72), the presentation of a command
(40_compressor.md R111), and what the next move of the machine is (00_scope.md R10). -/

namespace Sys2Proof.Machine

/-- The error code of a word that is no command (30_encoding.md R93, R94). -/
def codeOfCommandError : CommandError → ErrorCode
  | .illegalOpcode => .illegalOpcode
  | .reservedField => .reservedField

/-- The lock check of a command (40_compressor.md R111; 30_encoding.md section 3). -/
def lockError (locked : Bool) : Instr → Option ErrorCode
  | .nop => none
  | .commit => if locked then some .locked else none
  | .compress => if locked then none else some .notLocked
  | .hreset => none
  | .hwrite _ => if locked then none else some .notLocked
  | .hsum => if locked then none else some .notLocked

/-- The checks of a decoded command: LOCKED or NOT_LOCKED, then BAD_LEN (40_compressor.md R111). -/
def commandError (p : Params) (locked : Bool) (i : Instr) : Option ErrorCode :=
  match lockError locked i with
  | some e => some e
  | none => if i.wellFormed p then none else some .badLen

/-- The checks on a word that do not look at BUSY (40_compressor.md R111). -/
def wordError (p : Params) (locked : Bool) (c : Word) : Option ErrorCode :=
  match decodeWord c with
  | .error e => some (codeOfCommandError e)
  | .ok i => commandError p locked i

/-- The acceptance checks, in the order of 40_compressor.md R111 and 60_exceptions.md R175: the
first that fails, or `none`. -/
def State.presentError (s : State) (c : Word) : Option ErrorCode :=
  if s.busy then some .busy else wordError s.params s.locked c

/-- `present(c)` of 40_compressor.md R111. -/
def State.present (s : State) (c : Word) : State :=
  match s.presentError c with
  | some e => s.raise e (c.extractLsb' 0 32)
  | none => { s with pending := some c }

/-- The first check of every access: 8 bytes wide and 8-byte aligned (20_memory.md R65). -/
def accessOk (off : Offset) (size : Nat) : Bool := decide (size = 8) && decide (off.toNat % 8 = 0)

/-- The data of a successful read (20_memory.md R67). -/
def State.readData (s : State) (r : Region) (off : Nat) : Word :=
  match r with
  | .id => idWord
  | .param => paramWord s.params
  | .ctrl => s.ctrlWord
  | .status => s.statusWord
  | .errcode => s.errcodeWord
  | .cmd => 0
  | .count => s.count
  | .buflen => s.buflenWord
  | .out => s.loadWord off
  | .inp => s.loadWord off
  | .salt => s.loadWord off
  | .mat => s.loadWord off

/-- What reads as unspecified while `BUSY = 1` (20_memory.md R70). -/
def Region.unspecifiedWhileBusy : Region → Bool
  | .count => true
  | .buflen => true
  | .out => true
  | .id => false
  | .param => false
  | .ctrl => false
  | .status => false
  | .errcode => false
  | .cmd => false
  | .inp => false
  | .salt => false
  | .mat => false

/-- An OKAY response with a fresh unspecified value (20_memory.md R70; log 5). -/
def State.respondUnspecified (s : State) : State :=
  { s with response := some ⟨true, Config.busyRead s.busyReads⟩, busyReads := s.busyReads + 1 }

/-- A read of a mapped offset (20_memory.md R67, R70). -/
def State.readRegion (s : State) (r : Region) (off : Nat) : State :=
  if s.busy && r.unspecifiedWhileBusy then s.respondUnspecified else s.respondOkay (s.readData r off)

/-- `read(off)` of 20_memory.md R67. -/
def State.hostRead (s : State) (off : Offset) (size : Nat) : State :=
  if accessOk off size then
    match s.params.region off.toNat with
    | none => s.accessError .badAddress off
    | some r => s.readRegion r off.toNat
  else s.accessError .badAccess off

/-- A write to CTRL: SRST alone, or the two enables (10_state.md R23). -/
def State.writeCtrl (s : State) (v : Word) : State :=
  if v.getLsbD 8 then s.softReset else { s with ieDone := v.getLsbD 0, ieErr := v.getLsbD 1 }

/-- A write to STATUS: DONE and ERR are write-1-to-clear (20_memory.md R68, 10_state.md R24). -/
def State.writeStatus (s : State) (v : Word) : State :=
  let s' := if v.getLsbD 1 then { s with done := false } else s
  if v.getLsbD 2 then s'.clearError else s'

/-- A write to IN or SALT (20_memory.md R68, R71). -/
def State.writeOperand (s : State) (off : Offset) (v : Word) : State :=
  if s.busy then s.accessError .busy off else (s.storeWord off.toNat v).respondOkay 0

/-- A write to MAT: BUSY is checked before LOCKED (20_memory.md R68, R72; 60_exceptions.md R174). -/
def State.writeMatrix (s : State) (off : Offset) (v : Word) : State :=
  if s.busy then s.accessError .busy off
  else if s.locked then s.accessError .locked off
  else (s.storeWord off.toNat v).respondOkay 0

/-- A write to a mapped offset (20_memory.md R68). -/
def State.writeRegion (s : State) (r : Region) (off : Offset) (v : Word) : State :=
  match r with
  | .id => s.accessError .readOnly off
  | .param => s.accessError .readOnly off
  | .ctrl => (s.writeCtrl v).respondOkay 0
  | .status => (s.writeStatus v).respondOkay 0
  | .errcode => s.accessError .readOnly off
  | .cmd => (s.present v).respondOkay 0
  | .count => s.accessError .readOnly off
  | .buflen => s.accessError .readOnly off
  | .out => s.accessError .readOnly off
  | .inp => s.writeOperand off v
  | .salt => s.writeOperand off v
  | .mat => s.writeMatrix off v

/-- `write(off, v)` of 20_memory.md R68. -/
def State.hostWrite (s : State) (off : Offset) (size : Nat) (v : Word) : State :=
  if accessOk off size then
    match s.params.region off.toNat with
    | none => s.accessError .badAddress off
    | some r => s.writeRegion r off v
  else s.accessError .badAccess off

/-- A read at a platform address; one outside SHC's window does not reach SHC (log 9). -/
def State.busRead (s : State) (addr size : Nat) : State :=
  match s.params.offsetOf addr with
  | some off => s.hostRead off size
  | none => s

/-- A write at a platform address; one outside SHC's window does not reach SHC (log 9). -/
def State.busWrite (s : State) (addr size : Nat) (v : Word) : State :=
  match s.params.offsetOf addr with
  | some off => s.hostWrite off size v
  | none => s

/-- The engine takes the pending command to complete (40_compressor.md R110): enabled only when
`pending` is not empty; with nothing pending nothing happens (log 21). -/
def State.fetch (s : State) : Move :=
  match s.pending with
  | none => .advance s
  | some c =>
    match decodeWord c with
    | .ok i => .run i s
    | .error e => .refuse (.pendingNotACommand e)

/-- What an event of the outside world does (00_scope.md R10). -/
def State.react (s : State) : Event → Move
  | .read addr size => .advance (s.busRead addr size)
  | .write addr size v => .advance (s.busWrite addr size v)
  | .hardReset => .advance s.hardReset
  | .complete => s.fetch

/-- The next move: the first event of the list; with no event left the engine completes what is
pending (40_compressor.md R110, weak fairness; log 1). -/
def State.nextMove (s : State) : Move :=
  match s.events with
  | [] => s.fetch
  | e :: es => ({ s with events := es } : State).react e

end Sys2Proof.Machine
end

