-- ==== Sys2Proof/Machine/Compressor.lean ====
section
/-! DEFINITION. The compression function and its two datapaths (40_compressor.md R112 to R118), and
the commands NOP, COMMIT and COMPRESS (R119 to R121). -/

namespace Sys2Proof.Machine

/-- Output word `k` of `C_mat(X)` (40_compressor.md R113). -/
def State.matSum (s : State) (x : List Byte) (k : Nat) : Word :=
  sigma64 s.params.m fun i => if bitOf x i then s.matEntry k i else 0

/-- The value COMMIT gives `LUT[k][c][v]`, with `c = 2j+h` and so `8j + 4h = 4c`
(40_compressor.md R116). -/
def State.nibbleSum (s : State) (k c v : Nat) : Word :=
  sigma64 4 fun b => if v.testBit b then s.matEntry k (4 * c + b) else 0

/-- The lookup table that COMMIT builds from MAT, in the order of `lutIndex`
(40_compressor.md R116). -/
def State.buildLut (s : State) : List Word :=
  (List.range s.params.lutWords).map fun x =>
    s.nibbleSum (x / 16 / s.params.lutSlots) (x / 16 % s.params.lutSlots) (x % 16)

/-- `X[j][3:0]` (40_compressor.md R117). -/
def lowNibble (x : List Byte) (j : Nat) : Nat := ((x.getD j 0).extractLsb' 0 4).toNat

/-- `X[j][7:4]` (40_compressor.md R117). -/
def highNibble (x : List Byte) (j : Nat) : Nat := ((x.getD j 0).extractLsb' 4 4).toNat

/-- Output word `k` of `C_lut(X)` (40_compressor.md R117). -/
def State.lutSum (s : State) (x : List Byte) (k : Nat) : Word :=
  sigma64 (s.params.m / 8) fun j =>
    s.lutEntry k (2 * j) (lowNibble x j) + s.lutEntry k (2 * j + 1) (highNibble x j)

/-- Output word `k` of `C(X)`, by the datapath the instance has (00_scope.md R5). -/
def State.compressWord (s : State) (x : List Byte) (k : Nat) : Word :=
  if s.params.lutImpl then s.lutSum x k else s.matSum x k

/-- The `8N` bytes whose word `k` is `f k` (40_compressor.md R114). -/
def packWords (n : Nat) (f : Nat → Word) : List Byte := (List.range n).flatMap fun k => le64 (f k)

/-- `C(X)`, `8N` bytes (40_compressor.md R112 to R118). -/
def State.compress (s : State) (x : List Byte) : List Byte :=
  packWords s.params.n (s.compressWord x)

/-- NOP's completion: no effect (40_compressor.md R119). -/
def execNop (s : State) : Host.Outcome State Fault Refusal := .next s.complete

/-- The effect of COMMIT (40_compressor.md R120): the table is built if the instance has one, and
LOCKED is set. -/
def State.commitMatrix (s : State) : State :=
  { s with lut := if s.params.lutImpl then s.buildLut else s.lut, locked := true }

/-- COMMIT's completion (40_compressor.md R120). -/
def execCommit (s : State) : Host.Outcome State Fault Refusal := .next s.commitMatrix.complete

/-- COMPRESS's completion: `OUT <- C(IN)` (40_compressor.md R121). -/
def execCompress (s : State) : Host.Outcome State Fault Refusal :=
  .next (s.storeBytes outBase (s.compress s.inBytes)).complete

end Sys2Proof.Machine
end

