-- ==== Sys2Proof/Machine/HashPipeline.lean ====
section
/-! DEFINITION. The iterated hash (41_hash_pipeline.md R140 to R154): absorption, salt, padding and
finalisation, and the commands HRESET, HWRITE and HSUM. -/

namespace Sys2Proof.Machine

/-- `salt_xor(blk)` (41_hash_pipeline.md R143). -/
def State.saltXor (s : State) (blk : List Byte) : List Byte :=
  List.zipWith (· ^^^ ·) blk s.saltBytes

/-- `absorb(h, blk) = C(salt_xor(blk) ++ h)` (41_hash_pipeline.md R142). -/
def State.absorb (s : State) (h blk : List Byte) : List Byte := s.compress (s.saltXor blk ++ h)

/-- One turn of HWRITE's loop on `(H, buf)`: append a byte, and absorb `buf` when it is a whole
block (41_hash_pipeline.md R145). -/
def State.pushByte (s : State) (hb : List Byte × List Byte) (v : Byte) : List Byte × List Byte :=
  if (hb.2 ++ [v]).length = s.params.blockSize then (s.absorb hb.1 (hb.2 ++ [v]), [])
  else (hb.1, hb.2 ++ [v])

/-- HWRITE's loop over a string of bytes, in order (41_hash_pipeline.md R145). -/
def State.pushBytes (s : State) (hb : List Byte × List Byte) (vs : List Byte) :
    List Byte × List Byte :=
  vs.foldl s.pushByte hb

/-- The `while` loop of `pad` (41_hash_pipeline.md R148), with as many turns as `fuel` allows; `B`
turns are always enough (log 16). -/
def padZeros (b : Nat) : Nat → List Byte → List Byte
  | 0, p => p
  | fuel + 1, p => if p.length % b = b - 16 then p else padZeros b fuel (p ++ [0])

/-- The 16 bytes of the length field (41_hash_pipeline.md R149). -/
def lengthField (cnt : Word) : List Byte := le64 (cnt <<< 3) ++ le64 0

/-- `pad(b0, cnt)` for the block size `b` (41_hash_pipeline.md R148, R154). -/
def pad (b : Nat) (b0 : List Byte) (cnt : Word) : List Byte :=
  padZeros b b (b0 ++ [0x01]) ++ lengthField cnt

/-- Block `q` of a string, `p[qB..qB+B)` (41_hash_pipeline.md R150). -/
def blockAt (b : Nat) (p : List Byte) (q : Nat) : List Byte := (p.drop (q * b)).take b

/-- The first `n` blocks of a string, absorbed in order (41_hash_pipeline.md R150). -/
def State.absorbBlocks (s : State) (h p : List Byte) : Nat → List Byte
  | 0 => h
  | q + 1 => s.absorb (s.absorbBlocks h p q) (blockAt s.params.blockSize p q)

/-- `final(h, b0, cnt)` (41_hash_pipeline.md R150). -/
def State.final (s : State) (h b0 : List Byte) (cnt : Word) : List Byte :=
  s.absorbBlocks h (pad s.params.blockSize b0 cnt)
    ((pad s.params.blockSize b0 cnt).length / s.params.blockSize)

/-- HRESET's completion (41_hash_pipeline.md R144). -/
def execHreset (s : State) : Host.Outcome State Fault Refusal :=
  .next { s with chain := zeros s.params.outputLen, buf := [], count := 0 }.complete

/-- HWRITE's completion (41_hash_pipeline.md R145, R141). -/
def execHwrite (len : BitVec 16) (s : State) : Host.Outcome State Fault Refusal :=
  .next { s with
    chain := (s.pushBytes (s.chain, s.buf) (s.hwriteBytes len)).1
    buf := (s.pushBytes (s.chain, s.buf) (s.hwriteBytes len)).2
    count := s.count + len.zeroExtend 64 }.complete

/-- HSUM's completion: `OUT <- final(H, buf, count)`, on a copy (41_hash_pipeline.md R151,
R152). -/
def execHsum (s : State) : Host.Outcome State Fault Refusal :=
  .next (s.storeBytes outBase (s.final s.chain s.buf s.count)).complete

end Sys2Proof.Machine
end

