-- ==== Sys2Proof/Machine/Dispatch.lean ====
section
/-! DEFINITION. One arm per command: its completion by the engine (40_compressor.md R110; log 2). -/

namespace Sys2Proof.Machine

def exec (i : Instr) (s : State) : Host.Outcome State Fault Refusal :=
  match i with
  | .nop => Sys2Proof.Machine.execNop s
  | .commit => Sys2Proof.Machine.execCommit s
  | .compress => Sys2Proof.Machine.execCompress s
  | .hreset => Sys2Proof.Machine.execHreset s
  | .hwrite len => Sys2Proof.Machine.execHwrite len s
  | .hsum => Sys2Proof.Machine.execHsum s

end Sys2Proof.Machine
end

