-- ==== Sys2Proof/Machine/Step.lean ====
section
/-! DEFINITION. One step of SHC: one host access, one reset or one completion (00_scope.md R10). -/

namespace Sys2Proof.Machine

/-- One step. What it does is decided by `State.nextMove`; a command's meaning is `exec`'s. -/
def step (s : State) : Host.Outcome State Fault Refusal :=
  match s.nextMove with
  | .advance s' => .next s'
  | .run i s' => exec i s'
  | .refuse r => .refused r

/-- `s` with the `nbits`-bit command word `w` accepted and the engine's completion next: SHC has no
program counter, and `pending` is where the engine takes its command from (10_state.md R21, R37;
log 2). -/
def State.withFetchWord (s : State) (nbits w : Nat) : State :=
  { s with pending := some (BitVec.ofNat 64 (w % 2 ^ nbits)), events := .complete :: s.events }

end Sys2Proof.Machine
end

