-- ==== Sys2Proof/Machine/HostNotation.lean ====
section
/-! DEFINITION. The host notation's accesses as events (30_encoding.md R96, R97); the host's own
labels, branches and variables are the host's (log 18). -/

namespace Sys2Proof.Machine

/-- `ST64 off, v` (30_encoding.md R96). -/
def st64 (p : Params) (off : Nat) (v : Word) : Event := .write (p.base + off) 8 v

/-- `LD64 name, off` (30_encoding.md R96); the value is the response's data. -/
def ld64 (p : Params) (off : Nat) : Event := .read (p.base + off) 8

/-- `CMD mnemonic` (30_encoding.md R97). -/
def cmd (p : Params) (i : Instr) : Event := st64 p 0x028 (encodeWord i)

/-- `WAIT` that ends after the command has completed: the spinning reads of STATUS before it have no
effect, and one read sees `BUSY = 0` (30_encoding.md R97). -/
def wait (p : Params) : List Event := [.complete, ld64 p 0x018]

/-- `W1C mask` (30_encoding.md R97). -/
def w1c (p : Params) (mask : Word) : Event := st64 p 0x018 mask

/-- `SRST` (30_encoding.md R97). -/
def srst (p : Params) : Event := st64 p 0x010 0x100

/-- `STFILL off, n, f(t)` (30_encoding.md R97). -/
def stfill (p : Params) (off n : Nat) (f : Nat → Word) : List Event :=
  (List.range n).map fun t => st64 p (off + 8 * t) (f t)

/-- `STBYTES off, S` (30_encoding.md R97). -/
def stbytes (p : Params) (off : Nat) (bs : List Byte) : List Event :=
  stfill p off ((bs.length + 7) / 8) fun w => u64 (bs.drop (8 * w))

/-- `LDOUT o` (30_encoding.md R97). -/
def ldout (p : Params) : List Event := (List.range p.n).map fun k => ld64 p (outBase + 8 * k)

end Sys2Proof.Machine
end

