-- ==== Sys2Proof/Safety.lean ====
section
/-! DEFINITION. What counts as a legal state and as safe use of SHC, in the terms the statements
use. -/

namespace Sys2Proof.Machine

/-- Every MAT word has been written since the hard reset (70_reset_and_hazards.md R205 step 2,
R208). -/
def State.matComplete (s : State) : Prop :=
  ∀ t < s.params.matWords, ∀ j < 8, (Memory.lookup s.mem (matBase + 8 * t + j)).isSome = true

/-- The use of SHC that 70_reset_and_hazards.md R208 asks of software, and whose violation
93_implementation_defined.md I3 would have a model stop on: a pending COMMIT finds a completely
written matrix, and no error is on record. -/
def State.safe (s : State) : Prop :=
  s.err = false ∧ (s.pending = some (encodeWord .commit) → s.matComplete)

/-- The lookup table is the one R116 builds from the present matrix, if the instance has one
(20_memory.md R77). -/
def State.lutFresh (s : State) : Prop := s.params.lutImpl = true → s.lut = s.buildLut

/-- The invariant of SHC's state. -/
structure State.Inv (s : State) : Prop where
  /-- The memory is in its canonical form (log 7). -/
  mem_canonical : Memory.wf s.mem = true
  /-- Only bytes of the instance's arrays are listed (20_memory.md R62). -/
  mem_mapped : ∀ c ∈ s.mem, s.params.inArray c.1 = true
  /-- A MAT word is written whole or not at all (20_memory.md R65, R66). -/
  mat_whole : ∀ t < s.params.matWords, ∀ j < 8,
    (Memory.lookup s.mem (matBase + 8 * t + j)).isSome
      = (Memory.lookup s.mem (matBase + 8 * t)).isSome
  /-- `|H| = 8N` (10_state.md R34). -/
  chain_length : s.chain.length = 8 * s.params.n
  /-- `|buf| < B` (10_state.md R35, 41_hash_pipeline.md R140). -/
  buf_short : s.buf.length < s.params.blockSize
  /-- While `ERR = 0`, ERR_MULTI and ERRCODE are 0 (10_state.md R24, R25). -/
  error_quiet : s.err = false → s.errMulti = false ∧ s.errCode = .none ∧ s.errInfo = 0
  /-- While `ERR = 1`, ERRCODE names an error (60_exceptions.md R170). -/
  error_named : s.err = true → s.errCode ≠ .none
  /-- The pending command passed the acceptance checks, and still would (40_compressor.md R110,
  R111). -/
  pending_admitted : ∀ c, s.pending = some c → wordError s.params s.locked c = none
  /-- While the matrix is locked the table is coherent with it (20_memory.md R77). -/
  lut_coherent : s.locked = true → s.lutFresh
  /-- An instance without the table holds none (10_state.md R33). -/
  lut_absent : s.params.lutImpl = false → s.lut = []

/-- `t` is `s` with a write's answer recorded: OKAY or ERROR. The spec gives the answer of a write no
data, so the data is left open here (60_exceptions.md R177; log 8). -/
def State.answered (s : State) (okay : Bool) (t : State) : Prop :=
  ∃ d, t = { s with response := some ⟨okay, d⟩ }

/-- Two states of one instance with the same matrix and lookup table. -/
structure sameMatrix (s t : State) : Prop where
  params_eq : t.params = s.params
  lut_eq : t.lut = s.lut
  entry_eq : ∀ k < s.params.n, ∀ i < s.params.m, t.matEntry k i = s.matEntry k i

/-- Two states with the same hash state `(H, buf, count)` (41_hash_pipeline.md R140). -/
structure sameHash (s t : State) : Prop where
  chain_eq : t.chain = s.chain
  buf_eq : t.buf = s.buf
  count_eq : t.count = s.count

/-- The next event is a reset: the input `rst_n`, or a host write of CTRL with SRST = 1
(70_reset_and_hazards.md R200). -/
def State.resetIsNext (s : State) : Prop :=
  ∃ es, s.events = .hardReset :: es ∨
    ∃ addr v, s.events = .write addr 8 v :: es ∧ s.params.offsetOf addr = some 0x010
      ∧ v.getLsbD 8 = true

/-- The next event is a host write of 1 to bit `b` of STATUS (10_state.md R24). -/
def State.statusClearIsNext (s : State) (b : Nat) : Prop :=
  ∃ addr v es, s.events = .write addr 8 v :: es ∧ s.params.offsetOf addr = some 0x018
    ∧ v.getLsbD b = true

end Sys2Proof.Machine
end

