-- ==== Sys2Proof/Certificates/Slice0/Obligations.lean ====
section
/-! DEFINITION. The statements for the provers, in the order of OBLIGATIONS.json. Offsets and codes
are written as the spec's numbers. -/

open Sys2Proof Sys2Proof.Machine

/-! ### Encoding (30_encoding.md) -/

/-- Decoding the eight bytes of a command's word gives the command back (R90, R92). -/
def Obligations.DecodeOfEncodeIsTheCommand : Prop :=
  ∀ i : Instr, decode (encode i) = .ok i

/-- Every string of bytes that decodes is the encoding of what it decodes to: no bit of a command
word is ignored (R90, R93, R95). -/
def Obligations.DecodeAcceptsOnlyEncodings : Prop :=
  ∀ (bs : List Byte) (i : Instr), decode bs = .ok i → bs = encode i

/-- The words that 30_encoding.md section 3 prints, and the reserved ones next to them. -/
def Obligations.PrintedWordsDecodeToTheirCommands : Prop :=
  decodeWord 0x0000000000000000 = .ok .nop ∧
  decodeWord 0x0000000000000001 = .ok .commit ∧
  decodeWord 0x0000000000000002 = .ok .compress ∧
  decodeWord 0x0000000000000003 = .ok .hreset ∧
  decodeWord 0x0000000000110004 = .ok (.hwrite 17) ∧
  decodeWord 0x0000000000000005 = .ok .hsum ∧
  decodeWord 0x0000000000000006 = .error .illegalOpcode ∧
  decodeWord 0x0000000000000100 = .error .reservedField

/-- Which words are no command, and under which name (R91, R93, R94): a reserved opcode first, then
a reserved field; every other word is a command with the word's opcode. -/
def Obligations.WordsAreRefusedExactlyWhenReserved : Prop :=
  ∀ c : Word,
    (6 ≤ (c.extractLsb' 0 8).toNat → decodeWord c = .error .illegalOpcode) ∧
    ((c.extractLsb' 0 8).toNat < 6 →
      (c.extractLsb' 8 8 ≠ 0 ∨ c.extractLsb' 32 32 ≠ 0
        ∨ (c.extractLsb' 0 8 ≠ 4 ∧ c.extractLsb' 16 16 ≠ 0)) →
      decodeWord c = .error .reservedField) ∧
    ((c.extractLsb' 0 8).toNat < 6 →
      ¬ (c.extractLsb' 8 8 ≠ 0 ∨ c.extractLsb' 32 32 ≠ 0
        ∨ (c.extractLsb' 0 8 ≠ 4 ∧ c.extractLsb' 16 16 ≠ 0)) →
      ∃ i, decodeWord c = .ok i ∧ opcodeOf i = c.extractLsb' 0 8 ∧ lenOf i = c.extractLsb' 16 16)

/-! ### Presenting a command (40_compressor.md R111) -/

/-- The whole of R111: a write to CMD runs the checks in the rule's order; the first that fails is
raised with `c[31:0]`, and otherwise the word becomes pending. A rejected command changes only the
error record, and the write is answered with OKAY either way. -/
def Obligations.AcceptanceChecksRunInOrder : Prop :=
  ∀ (s : State) (c : Word),
    let op := (c.extractLsb' 0 8).toNat
    let len := (c.extractLsb' 16 16).toNat
    let reject := fun e : ErrorCode => s.raise e (c.extractLsb' 0 32)
    State.answered
      (if s.pending ≠ none then reject .busy
        else if 6 ≤ op then reject .illegalOpcode
        else if c.extractLsb' 8 8 ≠ 0 ∨ c.extractLsb' 32 32 ≠ 0 ∨ (op ≠ 4 ∧ len ≠ 0) then
          reject .reservedField
        else if op = 1 ∧ s.locked = true then reject .locked
        else if (op = 2 ∨ op = 4 ∨ op = 5) ∧ s.locked = false then reject .notLocked
        else if op = 4 ∧ s.params.m / 8 < len then reject .badLen
        else { s with pending := some c })
      true (s.hostWrite 0x028 8 c) ∧
    ∀ e : ErrorCode, reject e = { s with
      err := (reject e).err, errMulti := (reject e).errMulti,
      errCode := (reject e).errCode, errInfo := (reject e).errInfo }

/-! ### Errors, flags and the interrupt (60_exceptions.md, 10_state.md) -/

/-- R172: the first error is recorded with its code and INFO, a later one only sets ERR_MULTI, and
nothing else changes. -/
def Obligations.FirstErrorIsRecordedAndLaterOnesCounted : Prop :=
  ∀ (s : State) (code : ErrorCode) (info : BitVec 32),
    (s.err = false →
      s.raise code info = { s with err := true, errCode := code, errInfo := info }) ∧
    (s.err = true → s.raise code info = { s with errMulti := true })

/-- R24, R68 and R180: a write to STATUS clears DONE by bit 1, and ERR, ERR_MULTI and ERRCODE
together by bit 2; it changes nothing else, busy or not, and commands are checked the same while
`ERR = 1`. -/
def Obligations.StatusIsWriteOneToClear : Prop :=
  ∀ (s : State) (v : Word),
    State.answered { s with
      done := s.done && !v.getLsbD 1
      err := s.err && !v.getLsbD 2
      errMulti := s.errMulti && !v.getLsbD 2
      errCode := if v.getLsbD 2 then .none else s.errCode
      errInfo := if v.getLsbD 2 then 0 else s.errInfo } true (s.hostWrite 0x018 8 v) ∧
    ∀ c : Word, ({ s with err := true } : State).presentError c
      = ({ s with err := false } : State).presentError c

/-- R178: every completion sets DONE, whatever it was, and DONE then stays set until the host writes
1 to bit 1 of STATUS or a reset comes. -/
def Obligations.DoneIsSetByCompletionAndSticky : Prop :=
  (∀ (i : Instr) (s t : State), exec i s = .next t → t.done = true) ∧
  (∀ s t : State, s.done = true → step s = .next t → t.done = false →
    s.statusClearIsNext 1 ∨ s.resetIsNext)

/-- R172 and R173: while `ERR = 1` the error record keeps its code and INFO, and ERR_MULTI stays
set, until the host writes 1 to bit 2 of STATUS or a reset comes. -/
def Obligations.ErrorRecordIsKeptUntilCleared : Prop :=
  ∀ s t : State, s.err = true → step s = .next t →
    (t.err = true ∧ t.errCode = s.errCode ∧ t.errInfo = s.errInfo
      ∧ (s.errMulti = true → t.errMulti = true)) ∨
    s.statusClearIsNext 2 ∨ s.resetIsNext

/-- R38: the interrupt output, and its value after either reset. -/
def Obligations.InterruptIsLevelOfEnabledSources : Prop :=
  (∀ s : State, s.irq = true ↔ (s.done = true ∧ s.ieDone = true) ∨ (s.err = true ∧ s.ieErr = true)) ∧
  (∀ s : State, s.softReset.irq = false ∧ s.hardReset.irq = false)

/-- R177: OKAY for every access that raises no error and for every 8-byte write of CMD; ERROR for
every access error, with data 0 where the access is a read. -/
def Obligations.BusResponseTellsAccessErrors : Prop :=
  (∀ (s : State) (off : Offset) (size : Nat),
    (∃ d, (s.hostRead off size).response = some ⟨true, d⟩ ∧ (s.hostRead off size).err = s.err
      ∧ (s.hostRead off size).errMulti = s.errMulti) ∨
    (∃ e, e ≠ .none ∧ s.hostRead off size
      = { s.raise e (off.zeroExtend 32) with response := some ⟨false, 0⟩ })) ∧
  (∀ (s : State) (off : Offset) (size : Nat) (v : Word),
    ((∃ d, (s.hostWrite off size v).response = some ⟨true, d⟩) ∧
      (¬ (off = 0x028 ∧ size = 8) → ((s.hostWrite off size v).err = true → s.err = true)
        ∧ ((s.hostWrite off size v).errMulti = true → s.errMulti = true))) ∨
    (∃ e, e ≠ .none ∧ (s.raise e (off.zeroExtend 32)).answered false (s.hostWrite off size v))) ∧
  (∀ (s : State) (c : Word), ∃ d, (s.hostWrite 0x028 8 c).response = some ⟨true, d⟩)

/-! ### Reads (20_memory.md R67, R69, R70; 10_state.md R22 to R28) -/

/-- R65: an access of another width, or at an offset that is no multiple of 8, raises BAD_ACCESS
before every other check and has no other effect. -/
def Obligations.NarrowOrMisalignedAccessRaisesBadAccess : Prop :=
  ∀ (s : State) (off : Offset) (size : Nat) (v : Word), (size ≠ 8 ∨ off.toNat % 8 ≠ 0) →
    s.hostRead off size
      = { s.raise .badAccess (off.zeroExtend 32) with response := some ⟨false, 0⟩ } ∧
    (s.raise .badAccess (off.zeroExtend 32)).answered false (s.hostWrite off size v)

/-- R62: exactly the offsets outside the registers and the windows' used sizes are unmapped; an
access to one raises BAD_ADDRESS, and a read of any other is answered with OKAY. -/
def Obligations.UnmappedOffsetsRaiseBadAddress : Prop :=
  ∀ (s : State) (off : Offset) (v : Word), off.toNat % 8 = 0 →
    let unmapped :=
      (0x40 ≤ off.toNat ∧ off.toNat < 0x1000) ∨
      (0x1000 + 8 * s.params.n ≤ off.toNat ∧ off.toNat < 0x2000) ∨
      (0x2000 + s.params.m / 8 ≤ off.toNat ∧ off.toNat < 0x3000) ∨
      (0x3000 + (s.params.m / 8 - 8 * s.params.n) ≤ off.toNat ∧ off.toNat < 0x8000000) ∨
      0x8000000 + 8 * (s.params.n * s.params.m) ≤ off.toNat
    (unmapped →
      s.hostRead off 8
        = { s.raise .badAddress (off.zeroExtend 32) with response := some ⟨false, 0⟩ } ∧
      (s.raise .badAddress (off.zeroExtend 32)).answered false (s.hostWrite off 8 v)) ∧
    (¬ unmapped → ∃ d, (s.hostRead off 8).response = some ⟨true, d⟩)

/-- R22: `ID` and `PARAM` read as their constants in every state, and a write to them is refused with
READ_ONLY. -/
def Obligations.IdAndParamReadTheirConstants : Prop :=
  ∀ s : State,
    s.hostRead 0x000 8 = { s with response := some ⟨true, 0x0000000053484331⟩ } ∧
    (∀ v : Word,
      (s.raise .readOnly 0x000).answered false (s.hostWrite 0x000 8 v) ∧
      (s.raise .readOnly 0x008).answered false (s.hostWrite 0x008 8 v)) ∧
    ∃ d : Word, s.hostRead 0x008 8 = { s with response := some ⟨true, d⟩ } ∧
      (d.extractLsb' 0 16).toNat = s.params.n ∧
      (d.extractLsb' 16 16).toNat = s.params.m / 64 ∧
      d.getLsbD 32 = s.params.lutImpl ∧
      d.extractLsb' 33 15 = 0 ∧
      (d.extractLsb' 48 16).toNat = s.params.m / 8 - 8 * s.params.n

/-- R23, R24, R25, R26 and R170: what CTRL, STATUS, ERRCODE and CMD read as, field by field, busy or
not; the recorded error reads as its number in R170. -/
def Obligations.ControlRegistersReadTheirFields : Prop :=
  ∀ s : State,
    (∃ d : Word, s.hostRead 0x010 8 = { s with response := some ⟨true, d⟩ } ∧
      d.getLsbD 0 = s.ieDone ∧ d.getLsbD 1 = s.ieErr ∧ d.extractLsb' 2 62 = 0) ∧
    (∃ d : Word, s.hostRead 0x018 8 = { s with response := some ⟨true, d⟩ } ∧
      d.getLsbD 0 = s.pending.isSome ∧ d.getLsbD 1 = s.done ∧ d.getLsbD 2 = s.err ∧
      d.getLsbD 3 = s.errMulti ∧ d.getLsbD 4 = s.locked ∧ d.extractLsb' 5 59 = 0) ∧
    (∃ d : Word, s.hostRead 0x020 8 = { s with response := some ⟨true, d⟩ } ∧
      (∀ e ∈ ([(.none, 0x00), (.illegalOpcode, 0x01), (.reservedField, 0x02), (.busy, 0x03),
          (.notLocked, 0x04), (.locked, 0x05), (.badLen, 0x06), (.badAccess, 0x10),
          (.badAddress, 0x11), (.readOnly, 0x12)] : List (ErrorCode × Byte)),
        s.errCode = e.1 → d.extractLsb' 0 8 = e.2) ∧
      d.extractLsb' 8 24 = 0 ∧
      d.extractLsb' 32 32 = s.errInfo) ∧
    s.hostRead 0x028 8 = { s with response := some ⟨true, 0⟩ }

/-- R25: while `ERR = 0`, ERRCODE reads 0 (in states that satisfy the invariant). -/
def Obligations.ErrcodeReadsZeroWithoutError : Prop :=
  ∀ s : State, s.Inv → s.err = false → (s.hostRead 0x020 8).response = some ⟨true, 0⟩

/-- R27, R28 and R67: while idle, COUNT reads `count`, BUFLEN reads the length of `buf`, and an OUT
word reads the eight bytes of OUT, least significant first. -/
def Obligations.ResultsReadTheirValuesWhileIdle : Prop :=
  ∀ s : State, s.pending = none →
    s.hostRead 0x030 8 = { s with response := some ⟨true, s.count⟩ } ∧
    (s.buf.length < s.params.blockSize →
      s.hostRead 0x038 8 = { s with response := some ⟨true, BitVec.ofNat 64 s.buf.length⟩ }) ∧
    ∀ w < s.params.n, ∃ d : Word,
      s.hostRead (BitVec.ofNat 28 (0x1000 + 8 * w)) 8 = { s with response := some ⟨true, d⟩ } ∧
      d = s.loadWord (0x1000 + 8 * w) ∧
      ∀ t < 8, d.extractLsb' (8 * t) 8 = s.readByte (0x1000 + 8 * w + t)

/-- R70: while `BUSY = 1`, COUNT, BUFLEN and the OUT words read as a fresh unspecified value (the
model's free value, log 5), and IN, SALT and MAT words read as their bytes, busy or not. -/
def Obligations.BusyReadsOfResultsAreUnspecified : Prop :=
  ∀ (s : State) (off : Offset), off.toNat % 8 = 0 →
    (s.pending ≠ none →
      (off = 0x030 ∨ off = 0x038
        ∨ (0x1000 ≤ off.toNat ∧ off.toNat < 0x1000 + 8 * s.params.n)) →
      s.hostRead off 8 = { s with
        response := some ⟨true, Config.busyRead s.busyReads⟩, busyReads := s.busyReads + 1 }) ∧
    (((0x2000 ≤ off.toNat ∧ off.toNat < 0x2000 + s.params.m / 8) ∨
      (0x3000 ≤ off.toNat ∧ off.toNat < 0x3000 + (s.params.m / 8 - 8 * s.params.n)) ∨
      (0x8000000 ≤ off.toNat ∧ off.toNat < 0x8000000 + 8 * (s.params.n * s.params.m))) →
      ∃ d : Word, s.hostRead off 8 = { s with response := some ⟨true, d⟩ } ∧
        ∀ t < 8, d.extractLsb' (8 * t) 8 = s.readByte (off.toNat + t))

/-- R69: a read answered with OKAY changes no state of SHC, and while idle repeating it gives the
same data. The response and the counter of unspecified reads are the model's own fields (logs 5
and 8). -/
def Obligations.SuccessfulReadsHaveNoSideEffect : Prop :=
  ∀ (s : State) (off : Offset) (size : Nat) (d : Word),
    (s.hostRead off size).response = some ⟨true, d⟩ →
    { s.hostRead off size with response := s.response, busyReads := s.busyReads } = s ∧
    (s.pending = none →
      ((s.hostRead off size).hostRead off size).response = some ⟨true, d⟩)

/-! ### Writes (20_memory.md R68, R71, R72) -/

/-- R68: a write to ID, PARAM, ERRCODE, COUNT, BUFLEN or the OUT window raises READ_ONLY, busy or
not, and changes nothing else. -/
def Obligations.ReadOnlyOffsetsRefuseWrites : Prop :=
  ∀ (s : State) (off : Offset) (v : Word), off.toNat % 8 = 0 →
    (off = 0x000 ∨ off = 0x008 ∨ off = 0x020 ∨ off = 0x030 ∨ off = 0x038
      ∨ (0x1000 ≤ off.toNat ∧ off.toNat < 0x1000 + 8 * s.params.n)) →
    (s.raise .readOnly (off.zeroExtend 32)).answered false (s.hostWrite off 8 v)

/-- R61, R67 and R68: while idle, a write to IN or SALT, or to MAT while unlocked, stores the word
little-endian, reads back as written, and changes no other byte and no other state. -/
def Obligations.WindowWritesReadBack : Prop :=
  ∀ (s : State) (off : Offset) (v : Word), s.pending = none → off.toNat % 8 = 0 →
    ((0x2000 ≤ off.toNat ∧ off.toNat < 0x2000 + s.params.m / 8) ∨
      (0x3000 ≤ off.toNat ∧ off.toNat < 0x3000 + (s.params.m / 8 - 8 * s.params.n)) ∨
      (0x8000000 ≤ off.toNat ∧ off.toNat < 0x8000000 + 8 * (s.params.n * s.params.m)
        ∧ s.locked = false)) →
    let t := s.hostWrite off 8 v
    (t.hostRead off 8).response = some ⟨true, v⟩ ∧
    (∀ j < 8, t.readByte (off.toNat + j) = v.extractLsb' (8 * j) 8) ∧
    (∀ a, a < off.toNat ∨ off.toNat + 8 ≤ a → t.readByte a = s.readByte a) ∧
    s.answered true { t with mem := s.mem }

/-- R63: the word at offset `0x800_0000 + 8·(k·M + i)` is the column entry `A_word[k][i]`, and its bit
`r` is bit `[64k + r][i]` of the bit-matrix view: every read of that offset returns the entry, and a
write of it, while idle and unlocked, sets that entry and no other. -/
def Obligations.MatrixWindowHoldsTheEntriesBundleByBundle : Prop :=
  ∀ (s : State) (k i : Nat), k < s.params.n → i < s.params.m →
    let off : Offset := BitVec.ofNat 28 (0x8000000 + 8 * (k * s.params.m + i))
    (s.hostRead off 8).response = some ⟨true, s.matEntry k i⟩ ∧
    (∀ r < 64, s.matBit (64 * k + r) i = (s.matEntry k i).getLsbD r) ∧
    (s.pending = none → s.locked = false → ∀ v : Word,
      (s.hostWrite off 8 v).matEntry k i = v ∧
      ∀ k' < s.params.n, ∀ i' < s.params.m, (k', i') ≠ (k, i) →
        (s.hostWrite off 8 v).matEntry k' i' = s.matEntry k' i')

/-- R71: while `BUSY = 1`, writes to IN, SALT and MAT raise BUSY and change nothing else, a command
is rejected with BUSY, and writes to CTRL and STATUS are accepted. -/
def Obligations.BusyRefusesOperandsAndCommands : Prop :=
  ∀ (s : State) (v : Word), s.pending ≠ none →
    (∀ off : Offset, off.toNat % 8 = 0 →
      ((0x2000 ≤ off.toNat ∧ off.toNat < 0x2000 + s.params.m / 8) ∨
        (0x3000 ≤ off.toNat ∧ off.toNat < 0x3000 + (s.params.m / 8 - 8 * s.params.n)) ∨
        (0x8000000 ≤ off.toNat ∧ off.toNat < 0x8000000 + 8 * (s.params.n * s.params.m))) →
      (s.raise .busy (off.zeroExtend 32)).answered false (s.hostWrite off 8 v)) ∧
    (s.raise .busy (v.extractLsb' 0 32)).answered true (s.hostWrite 0x028 8 v) ∧
    (∃ d, (s.hostWrite 0x010 8 v).response = some ⟨true, d⟩) ∧
    (v.getLsbD 8 = false →
      (s.hostWrite 0x010 8 v).ieDone = v.getLsbD 0 ∧ (s.hostWrite 0x010 8 v).ieErr = v.getLsbD 1) ∧
    (∃ d, (s.hostWrite 0x018 8 v).response = some ⟨true, d⟩) ∧
    (s.hostWrite 0x018 8 v).done = (s.done && !v.getLsbD 1)

/-- R72: while idle and locked, a write to MAT raises LOCKED and changes nothing else. -/
def Obligations.LockedMatrixRefusesWrites : Prop :=
  ∀ (s : State) (off : Offset) (v : Word), s.pending = none → s.locked = true →
    off.toNat % 8 = 0 →
    (0x8000000 ≤ off.toNat ∧ off.toNat < 0x8000000 + 8 * (s.params.n * s.params.m)) →
    (s.raise .locked (off.zeroExtend 32)).answered false (s.hostWrite off 8 v)

/-- R72 and R24: from a locked state no step changes a byte of MAT, the lookup table of an instance
that has one, or LOCKED, but a reset. The table's part holds where no second COMMIT is pending,
which R111 never accepts. -/
def Obligations.MatrixIsFrozenUntilReset : Prop :=
  ∀ s t : State, s.locked = true → step s = .next t →
    s.resetIsNext ∨
    (t.locked = true ∧ (∀ a, 0x8000000 ≤ a → t.readByte a = s.readByte a) ∧
      (s.pending ≠ some (encodeWord .commit) → t.lut = s.lut))

/-- R23: a write to CTRL with SRST = 0 sets the two enables and nothing else; with SRST = 1 it is a
soft reset and the other bits are discarded. -/
def Obligations.CtrlWriteSetsEnablesOrResets : Prop :=
  ∀ (s : State) (v : Word),
    (v.getLsbD 8 = false → State.answered
      { s with ieDone := v.getLsbD 0, ieErr := v.getLsbD 1 } true (s.hostWrite 0x010 8 v)) ∧
    (v.getLsbD 8 = true → s.softReset.answered true (s.hostWrite 0x010 8 v))

/-! ### Resets (70_reset_and_hazards.md) -/

/-- R202 and R204: after a write of SRST, busy or not, everything has its reset value, no command is
pending, and every byte of MAT is as it was. -/
def Obligations.SoftResetKeepsOnlyTheMatrix : Prop :=
  ∀ (s : State) (v : Word), v.getLsbD 8 = true →
    let t := s.hostWrite 0x010 8 v
    t.ieDone = false ∧ t.ieErr = false ∧ t.done = false ∧ t.err = false ∧ t.errMulti = false ∧
    t.locked = false ∧ t.errCode = .none ∧ t.errInfo = 0 ∧ t.pending = none ∧
    t.chain = List.replicate (8 * s.params.n) 0 ∧ t.buf = [] ∧ t.count = 0 ∧
    t.params = s.params ∧ (∃ d, t.response = some ⟨true, d⟩) ∧
    (∀ a < 0x8000000, t.readByte a = 0) ∧ (∀ a, 0x8000000 ≤ a → t.readByte a = s.readByte a)

/-- R201 and R204: the hard reset, as a step, from any state. MAT's unspecified contents are the
model's free values of a new number (log 4). -/
def Obligations.HardResetClearsEverything : Prop :=
  ∀ (s : State) (es : List Event), s.events = .hardReset :: es → ∃ t, step s = .next t ∧
    t.ieDone = false ∧ t.ieErr = false ∧ t.done = false ∧ t.err = false ∧ t.errMulti = false ∧
    t.locked = false ∧ t.errCode = .none ∧ t.errInfo = 0 ∧ t.pending = none ∧
    t.chain = List.replicate (8 * s.params.n) 0 ∧ t.buf = [] ∧ t.count = 0 ∧
    t.params = s.params ∧ t.events = es ∧ t.irq = false ∧
    (∀ a < 0x8000000, t.readByte a = 0) ∧
    (∀ w j, j < 8 → t.readByte (0x8000000 + 8 * w + j)
      = (Config.matUnwritten (s.hardResets + 1) w).extractLsb' (8 * j) 8)

/-- R201: what the reset state's registers read as. The instance is the reference instance of R4
(the model's choice, log 3). -/
def Obligations.ResetStateReadsAsSpecified : Prop :=
  State.reset.params.n = 10 ∧ State.reset.params.m = 1280 ∧
  (State.reset.hostRead 0x010 8).response = some ⟨true, 0⟩ ∧
  (State.reset.hostRead 0x018 8).response = some ⟨true, 0⟩ ∧
  (State.reset.hostRead 0x020 8).response = some ⟨true, 0⟩ ∧
  (State.reset.hostRead 0x030 8).response = some ⟨true, 0⟩ ∧
  (State.reset.hostRead 0x038 8).response = some ⟨true, 0⟩ ∧
  (∀ a < 0x8000000, State.reset.readByte a = 0) ∧
  State.reset.chain = List.replicate 80 0 ∧ State.reset.buf = [] ∧ State.reset.irq = false

/-! ### The commands' completions (40_compressor.md R119 to R121, 41_hash_pipeline.md R144 to
R151), each with its frame -/

/-- R119 and R110: NOP completes from every state; `pending` empties and DONE is set. -/
def Obligations.NopCompletesWithoutEffect : Prop :=
  ∀ s : State, exec .nop s = .next { s with pending := none, done := true }

/-- R120, R116 and R110: COMMIT completes from every state, sets LOCKED, and builds the lookup table
of an instance that has one: entry `[k][2j+h][v]` is the sum modulo 2^64 of the words
`MAT[k·M + 8j + 4h + b]`, at their offsets in the window, that the bits `b` of `v` select. It changes nothing else, and no byte of memory. -/
def Obligations.CommitLocksAndBuildsTheTable : Prop :=
  ∀ s : State, ∃ t, exec .commit s = .next t ∧
    t = { s with lut := t.lut, locked := true, pending := none, done := true } ∧
    (s.params.lutImpl = false → t.lut = s.lut) ∧
    (s.params.lutImpl = true → ∀ k < s.params.n, ∀ j < s.params.m / 8, ∀ h < 2, ∀ v < 16,
      (t.lutEntry k (2 * j + h) v).toNat
        = (∑ b ∈ (Finset.range 4).filter (fun b => v.testBit b),
            (s.loadWord (0x8000000 + 8 * (k * s.params.m + (8 * j + 4 * h + b)))).toNat) % 2 ^ 64)

/-- R121, R112 and R114: COMPRESS completes from every state whose table, if the instance has one,
was built from the present matrix. OUT word `k` becomes the sum modulo 2^64 of the words
`MAT[k·M + i]`, at their offsets in the window, whose bit `i` is set in IN; no byte of memory outside OUT and nothing else changes. -/
def Obligations.CompressWritesTheSubsetSums : Prop :=
  ∀ s : State, s.lutFresh → ∃ t, exec .compress s = .next t ∧
    (∀ k < s.params.n, (t.loadWord (0x1000 + 8 * k)).toNat
      = (∑ i ∈ (Finset.range s.params.m).filter
            (fun i => (s.readByte (0x2000 + i / 8)).getLsbD (i % 8)),
          (s.loadWord (0x8000000 + 8 * (k * s.params.m + i))).toNat) % 2 ^ 64) ∧
    (∀ a, a < 0x1000 ∨ 0x1000 + 8 * s.params.n ≤ a → t.readByte a = s.readByte a) ∧
    { t with mem := s.mem } = { s with pending := none, done := true }

/-- R144 and R110: HRESET completes from every state; `H`, `buf` and `count` get their reset values,
and nothing else changes. -/
def Obligations.HresetClearsTheHashState : Prop :=
  ∀ s : State, exec .hreset s = .next { s with
    chain := List.replicate (8 * s.params.n) 0, buf := [], count := 0, pending := none,
    done := true }

/-- R145, R141 and R110: HWRITE completes from every state with a legal buffer, for every admitted
length. It absorbs the whole blocks of `buf ++ IN[0..len)` in order, `floor((|buf| + len)/B)` of them,
keeps the rest as `buf`, and adds `len` to `count` modulo 2^64; no byte of memory and nothing else
changes. -/
def Obligations.HwriteAbsorbsWholeBlocks : Prop :=
  ∀ (s : State) (len : BitVec 16), s.buf.length < s.params.blockSize →
    len.toNat ≤ s.params.m / 8 →
    let msg := s.buf ++ (s.readBytes 0x2000 len.toNat)
    let q := (s.buf.length + len.toNat) / s.params.blockSize
    ∃ t, exec (.hwrite len) s = .next t ∧
      t.chain = s.absorbBlocks s.chain msg q ∧
      t.buf = msg.drop (q * s.params.blockSize) ∧
      t.count.toNat = (s.count.toNat + len.toNat) % 2 ^ 64 ∧
      t = { s with chain := t.chain, buf := t.buf, count := t.count, pending := none, done := true }

/-- R151, R150, R148 and R110: HSUM completes from every state with a legal buffer. OUT becomes the
chaining value after the padded buffer's one or two blocks; `H`, `buf`, `count`, every byte of memory
outside OUT and everything else are unchanged. -/
def Obligations.HsumWritesTheDigest : Prop :=
  ∀ s : State, s.buf.length < s.params.blockSize →
    let b := s.params.blockSize
    let p := s.buf ++ [0x01] ++ List.replicate ((2 * b - 17 - s.buf.length) % b) 0
      ++ le64 (BitVec.ofNat 64 (s.count.toNat * 8)) ++ List.replicate 8 0
    ∃ t, exec .hsum s = .next t ∧
      t.readBytes 0x1000 (8 * s.params.n)
        = s.absorbBlocks s.chain p (if s.buf.length + 17 ≤ b then 1 else 2) ∧
      (∀ a, a < 0x1000 ∨ 0x1000 + 8 * s.params.n ≤ a → t.readByte a = s.readByte a) ∧
      { t with mem := s.mem } = { s with pending := none, done := true }

/-- R70 and R76: no completion changes IN, SALT or MAT, or any byte outside OUT. R110 and R170: none
raises an error. R24 and R120: none but COMMIT's changes LOCKED. The parameters, the two enables and
the model's own fields (logs 1, 4, 5, 8 and 22) stay as they are. -/
def Obligations.EngineNeverWritesOperandArrays : Prop :=
  ∀ (i : Instr) (s t : State), exec i s = .next t →
    (∀ a, a < 0x1000 ∨ 0x1000 + 8 * s.params.n ≤ a → t.readByte a = s.readByte a) ∧
    t.params = s.params ∧ t.ieDone = s.ieDone ∧ t.ieErr = s.ieErr ∧ t.err = s.err ∧
    t.errMulti = s.errMulti ∧ t.errCode = s.errCode ∧ t.errInfo = s.errInfo ∧
    t.events = s.events ∧ t.response = s.response ∧ t.busyReads = s.busyReads ∧
    t.hardResets = s.hardResets ∧ (t.locked = s.locked ∨ i = .commit)

/-! ### The compression function (40_compressor.md R112 to R118, R122) -/

/-- R118: the table datapath gives the matrix datapath's word, for every input and every lane,
whenever the table was built from the present matrix. -/
def Obligations.TableDatapathEqualsMatrixDatapath : Prop :=
  ∀ s : State, s.lut = s.buildLut → ∀ (x : List Byte) (k : Nat), k < s.params.n →
    s.lutSum x k = s.matSum x k

/-- R115: the all-zero input gives the all-zero result, and the result of two inputs with no common
bit is, lane by lane, the sum of their results. -/
def Obligations.CompressionAddsOverDisjointInputs : Prop :=
  ∀ s : State, s.lutFresh →
    s.compress (List.replicate (s.params.m / 8) 0) = List.replicate (8 * s.params.n) 0 ∧
    ∀ x y : List Byte, x.length = s.params.m / 8 → y.length = s.params.m / 8 →
      (∀ i < s.params.m, ¬ (bitOf x i = true ∧ bitOf y i = true)) →
      ∀ k < s.params.n, s.compressWord (List.zipWith (· ^^^ ·) x y) k
        = s.compressWord x k + s.compressWord y k

/-- R115 and R5: lane `k` depends only on bundle `k` of the matrix and the input, whichever datapath
each of two instances of one size has. -/
def Obligations.LaneReadsOnlyItsBundle : Prop :=
  ∀ s t : State, t.params.n = s.params.n → t.params.m = s.params.m → s.lutFresh → t.lutFresh →
    ∀ k < s.params.n, (∀ i < s.params.m, t.matEntry k i = s.matEntry k i) →
    ∀ x : List Byte, t.compressWord x k = s.compressWord x k

/-- R122: if the `p` entries that `x` selects all equal `2^64 − 1`, whatever the others are, they sum
to `2^64 − p`, modulo 2^64. -/
def Obligations.AllOnesEntriesWrapAround : Prop :=
  ∀ s : State, s.lutFresh → ∀ k < s.params.n, ∀ x : List Byte,
    (∀ i < s.params.m, bitOf x i = true → s.matEntry k i = BitVec.allOnes 64) →
    s.compressWord x k
      = 0 - BitVec.ofNat 64 ((Finset.range s.params.m).filter (fun i => bitOf x i)).card

/-- R142 and R143: absorbing a block compresses the salted block followed by the chaining value:
message bits below `8B` come from the block XOR the salt, the others from `H`. -/
def Obligations.AbsorptionCompressesSaltedBlockThenChain : Prop :=
  ∀ s : State, s.lutFresh → ∀ h blk : List Byte, h.length = 8 * s.params.n →
    blk.length = s.params.blockSize → ∀ k < s.params.n,
    (u64 ((s.absorb h blk).drop (8 * k))).toNat
      = (∑ i ∈ (Finset.range s.params.m).filter (fun i =>
            if i < 8 * s.params.blockSize then
              (blk.getD (i / 8) 0 ^^^ s.readByte (0x3000 + i / 8)).getLsbD (i % 8)
            else (h.getD (i / 8 - s.params.blockSize) 0).getLsbD (i % 8)),
          (s.matEntry k i).toNat) % 2 ^ 64

/-- R143 and R31: an all-zero salt leaves every block as it is. -/
def Obligations.ZeroSaltChangesNoBlock : Prop :=
  ∀ s : State, (∀ j < s.params.blockSize, s.readByte (0x3000 + j) = 0) →
    ∀ blk : List Byte, blk.length = s.params.blockSize → s.saltXor blk = blk

/-! ### The iterated hash (41_hash_pipeline.md) -/

/-- R146: HWRITE of `P` and then HWRITE of `Q`, with the salt and the matrix unchanged in between,
leaves the hash state of one HWRITE of `P ++ Q`. -/
def Obligations.SplitHwritesLeaveTheSameHashState : Prop :=
  ∀ (s u w s' u' w' : State) (a b c : BitVec 16), c.toNat = a.toNat + b.toNat →
    c.toNat ≤ s.params.m / 8 →
    exec (.hwrite a) s = .next s' →
    sameHash s' u → sameMatrix s u → u.saltBytes = s.saltBytes →
    exec (.hwrite b) u = .next u' →
    sameHash s w → sameMatrix s w → w.saltBytes = s.saltBytes →
    w.readBytes 0x2000 c.toNat = s.readBytes 0x2000 a.toNat ++ u.readBytes 0x2000 b.toNat →
    exec (.hwrite c) w = .next w' →
    sameHash u' w'

/-- R147: HWRITE 0 is accepted whenever idle and locked, and its completion changes no part of the
hash state and sets DONE. -/
def Obligations.HwriteOfNothingKeepsTheHashState : Prop :=
  ∀ s : State,
    (s.pending = none → s.locked = true →
      State.answered { s with pending := some 0x0000000000000004 } true
        (s.hostWrite 0x028 8 0x0000000000000004)) ∧
    exec (.hwrite 0) s = .next { s with pending := none, done := true }

/-- R148: the padding appends `0x01`, `(B − 17 − |b0|) mod B` zero bytes and the length field; the
result is one block if `|b0| ≤ B − 17` and two otherwise. -/
def Obligations.PaddingFillsOneOrTwoBlocks : Prop :=
  ∀ (b : Nat) (b0 : List Byte) (cnt : Word), 16 ≤ b → b0.length < b →
    pad b b0 cnt = b0 ++ [0x01] ++ List.replicate ((2 * b - 17 - b0.length) % b) 0
      ++ le64 (BitVec.ofNat 64 (cnt.toNat * 8)) ++ le64 0 ∧
    (b0.length + 17 ≤ b → (pad b b0 cnt).length = b) ∧
    (b < b0.length + 17 → (pad b b0 cnt).length = 2 * b)

/-- R149: the length field is 16 bytes: `count · 8` modulo 2^64, least significant byte first, and
then eight zero bytes. -/
def Obligations.LengthFieldIsTheBitCount : Prop :=
  ∀ cnt : Word, (lengthField cnt).length = 16 ∧
    (u64 (lengthField cnt)).toNat = (cnt.toNat * 8) % 2 ^ 64 ∧
    (lengthField cnt).drop 8 = List.replicate 8 0

/-- R152: HSUM leaves `H`, `buf` and `count` alone, and a second HSUM writes the same OUT. -/
def Obligations.HsumIsRepeatable : Prop :=
  ∀ s t u : State, exec .hsum s = .next t → exec .hsum t = .next u →
    sameHash s t ∧ u.readBytes 0x1000 (8 * s.params.n) = t.readBytes 0x1000 (8 * s.params.n)

/-- R152: HSUM, then HWRITE, then HSUM gives the digest and the hash state of the same HWRITE with no
HSUM before it. -/
def Obligations.HsumDoesNotDisturbLaterWrites : Prop :=
  ∀ (s s1 s2 s3 r1 r2 : State) (len : BitVec 16),
    exec .hsum s = .next s1 → exec (.hwrite len) s1 = .next s2 → exec .hsum s2 = .next s3 →
    exec (.hwrite len) s = .next r1 → exec .hsum r1 = .next r2 →
    sameHash r2 s3 ∧ s3.readBytes 0x1000 (8 * s.params.n) = r2.readBytes 0x1000 (8 * s.params.n)

/-- R155 and R5: the digest is a function of the hash state, the salt and the matrix alone, and is
the same with `LUT_IMPL = 0` and `LUT_IMPL = 1`. -/
def Obligations.DigestDependsOnlyOnHashStateSaltAndMatrix : Prop :=
  ∀ s t : State, t.params.n = s.params.n → t.params.m = s.params.m → s.lutFresh → t.lutFresh →
    sameHash s t →
    (∀ j < s.params.blockSize, t.readByte (0x3000 + j) = s.readByte (0x3000 + j)) →
    (∀ k < s.params.n, ∀ i < s.params.m, t.matEntry k i = s.matEntry k i) →
    ∃ s' t', exec .hsum s = .next s' ∧ exec .hsum t = .next t' ∧
      t'.readBytes 0x1000 (8 * s.params.n) = s'.readBytes 0x1000 (8 * s.params.n)

/-! ### The matrix after a hard reset (70_reset_and_hazards.md R203, R208) -/

/-- R203: a MAT word not written since the hard reset reads as one value fixed by the hard reset's
number and the word (the model's free value, log 4). -/
def Obligations.UnwrittenMatrixWordReadsOneFixedValue : Prop :=
  ∀ (s : State) (w : Nat), w < s.params.n * s.params.m →
    (∀ j < 8, Memory.lookup s.mem (0x8000000 + 8 * w + j) = none) →
    (s.hostRead (BitVec.ofNat 28 (0x8000000 + 8 * w)) 8).response
      = some ⟨true, Config.matUnwritten s.hardResets w⟩

/-- R203: a MAT word is unspecified only until the host writes it, so once every word has been written
no matrix entry depends on an unspecified value, that is on the number of hard resets by which the
model numbers these values (log 4). -/
def Obligations.CompleteMatrixHoldsNoUnspecifiedValue : Prop :=
  ∀ (s : State) (r : Nat), s.matComplete → ∀ k < s.params.n, ∀ i < s.params.m,
    ({ s with hardResets := r } : State).matEntry k i = s.matEntry k i

/-! ### Steps (00_scope.md R10; 40_compressor.md R110) -/

/-- R110: where a command is pending, the step that lets the engine move runs exactly it, and so does
the step with no event left. That these are the engine's turns is the model's choice (log 1). -/
def Obligations.StepRunsThePendingCommand : Prop :=
  ∀ (s : State) (c : Word) (i : Instr), s.pending = some c → decodeWord c = .ok i →
    (s.events = [] → step s = exec i s) ∧
    (∀ es, s.events = .complete :: es → step s = exec i { s with events := es })

/-- R10, R60 and R66: the step of a host access is that access alone, at its offset in the window;
an access outside the window does not reach SHC, and with nothing to do nothing happens (the model's
choices: logs 1 and 9). -/
def Obligations.StepCarriesOutOneHostAccess : Prop :=
  ∀ s : State,
    (∀ addr size es, s.events = .read addr size :: es →
      (∀ off : Offset, addr = s.params.base + off.toNat →
        step s = .next (({ s with events := es } : State).hostRead off size)) ∧
      ((addr < s.params.base ∨ s.params.base + 2 ^ 28 ≤ addr) →
        step s = .next { s with events := es })) ∧
    (∀ addr size v es, s.events = .write addr size v :: es →
      (∀ off : Offset, addr = s.params.base + off.toNat →
        step s = .next (({ s with events := es } : State).hostWrite off size v)) ∧
      ((addr < s.params.base ∨ s.params.base + 2 ^ 28 ≤ addr) →
        step s = .next { s with events := es })) ∧
    (s.pending = none → s.events = [] → step s = .next s) ∧
    (∀ es, s.pending = none → s.events = .complete :: es → step s = .next { s with events := es })

/-- The invariant of Safety.lean is kept by every step: canonical memory inside the arrays, whole
MAT words, the lengths of `H` and `buf`, a coherent error record, an admitted pending command, and a
lookup table coherent with the locked matrix (R24, R25, R35, R77, R110, R140). The canonical form is
the model's (log 7). -/
def Obligations.EveryStepKeepsTheInvariant : Prop :=
  ∀ s t : State, s.Inv → step s = .next t → t.Inv

/-- The invariant holds after reset, for every instance and for the reference instance. -/
def Obligations.ResetMeetsTheInvariant : Prop :=
  (∀ p : Params, (State.resetFor p).Inv) ∧ State.reset.Inv

/-- R170 and R110: from a state that satisfies the invariant every step has a next state: SHC never
stops. -/
def Obligations.NoStepFromTheInvariantStops : Prop :=
  ∀ s : State, s.Inv → ∃ t, step s = .next t
end

