-- ==== Sys2Proof/Laws/State.lean ====
section
/-! SUPPORT. One lemma per field per update of the state, so that no proof unfolds a record
update. -/

namespace Sys2Proof.Machine

/-! ### storeBytes -/

@[simp] theorem State.storeBytes_params (s : State) (a : Nat) (vs : List Byte) :
    (s.storeBytes a vs).params = s.params := rfl

@[simp] theorem State.storeBytes_ieDone (s : State) (a : Nat) (vs : List Byte) :
    (s.storeBytes a vs).ieDone = s.ieDone := rfl

@[simp] theorem State.storeBytes_ieErr (s : State) (a : Nat) (vs : List Byte) :
    (s.storeBytes a vs).ieErr = s.ieErr := rfl

@[simp] theorem State.storeBytes_done (s : State) (a : Nat) (vs : List Byte) :
    (s.storeBytes a vs).done = s.done := rfl

@[simp] theorem State.storeBytes_err (s : State) (a : Nat) (vs : List Byte) :
    (s.storeBytes a vs).err = s.err := rfl

@[simp] theorem State.storeBytes_errMulti (s : State) (a : Nat) (vs : List Byte) :
    (s.storeBytes a vs).errMulti = s.errMulti := rfl

@[simp] theorem State.storeBytes_locked (s : State) (a : Nat) (vs : List Byte) :
    (s.storeBytes a vs).locked = s.locked := rfl

@[simp] theorem State.storeBytes_errCode (s : State) (a : Nat) (vs : List Byte) :
    (s.storeBytes a vs).errCode = s.errCode := rfl

@[simp] theorem State.storeBytes_errInfo (s : State) (a : Nat) (vs : List Byte) :
    (s.storeBytes a vs).errInfo = s.errInfo := rfl

@[simp] theorem State.storeBytes_mem (s : State) (a : Nat) (vs : List Byte) :
    (s.storeBytes a vs).mem = Memory.storeBytes s.mem a vs := rfl

@[simp] theorem State.storeBytes_lut (s : State) (a : Nat) (vs : List Byte) :
    (s.storeBytes a vs).lut = s.lut := rfl

@[simp] theorem State.storeBytes_chain (s : State) (a : Nat) (vs : List Byte) :
    (s.storeBytes a vs).chain = s.chain := rfl

@[simp] theorem State.storeBytes_buf (s : State) (a : Nat) (vs : List Byte) :
    (s.storeBytes a vs).buf = s.buf := rfl

@[simp] theorem State.storeBytes_count (s : State) (a : Nat) (vs : List Byte) :
    (s.storeBytes a vs).count = s.count := rfl

@[simp] theorem State.storeBytes_pending (s : State) (a : Nat) (vs : List Byte) :
    (s.storeBytes a vs).pending = s.pending := rfl

@[simp] theorem State.storeBytes_events (s : State) (a : Nat) (vs : List Byte) :
    (s.storeBytes a vs).events = s.events := rfl

@[simp] theorem State.storeBytes_response (s : State) (a : Nat) (vs : List Byte) :
    (s.storeBytes a vs).response = s.response := rfl

@[simp] theorem State.storeBytes_busyReads (s : State) (a : Nat) (vs : List Byte) :
    (s.storeBytes a vs).busyReads = s.busyReads := rfl

@[simp] theorem State.storeBytes_hardResets (s : State) (a : Nat) (vs : List Byte) :
    (s.storeBytes a vs).hardResets = s.hardResets := rfl

/-! ### respondOkay -/

@[simp] theorem State.respondOkay_params (s : State) (v : Word) :
    (s.respondOkay v).params = s.params := rfl

@[simp] theorem State.respondOkay_ieDone (s : State) (v : Word) :
    (s.respondOkay v).ieDone = s.ieDone := rfl

@[simp] theorem State.respondOkay_ieErr (s : State) (v : Word) :
    (s.respondOkay v).ieErr = s.ieErr := rfl

@[simp] theorem State.respondOkay_done (s : State) (v : Word) :
    (s.respondOkay v).done = s.done := rfl

@[simp] theorem State.respondOkay_err (s : State) (v : Word) : (s.respondOkay v).err = s.err := rfl

@[simp] theorem State.respondOkay_errMulti (s : State) (v : Word) :
    (s.respondOkay v).errMulti = s.errMulti := rfl

@[simp] theorem State.respondOkay_locked (s : State) (v : Word) :
    (s.respondOkay v).locked = s.locked := rfl

@[simp] theorem State.respondOkay_errCode (s : State) (v : Word) :
    (s.respondOkay v).errCode = s.errCode := rfl

@[simp] theorem State.respondOkay_errInfo (s : State) (v : Word) :
    (s.respondOkay v).errInfo = s.errInfo := rfl

@[simp] theorem State.respondOkay_mem (s : State) (v : Word) : (s.respondOkay v).mem = s.mem := rfl

@[simp] theorem State.respondOkay_lut (s : State) (v : Word) : (s.respondOkay v).lut = s.lut := rfl

@[simp] theorem State.respondOkay_chain (s : State) (v : Word) :
    (s.respondOkay v).chain = s.chain := rfl

@[simp] theorem State.respondOkay_buf (s : State) (v : Word) : (s.respondOkay v).buf = s.buf := rfl

@[simp] theorem State.respondOkay_count (s : State) (v : Word) :
    (s.respondOkay v).count = s.count := rfl

@[simp] theorem State.respondOkay_pending (s : State) (v : Word) :
    (s.respondOkay v).pending = s.pending := rfl

@[simp] theorem State.respondOkay_events (s : State) (v : Word) :
    (s.respondOkay v).events = s.events := rfl

@[simp] theorem State.respondOkay_response (s : State) (v : Word) :
    (s.respondOkay v).response = some ⟨true, v⟩ := rfl

@[simp] theorem State.respondOkay_busyReads (s : State) (v : Word) :
    (s.respondOkay v).busyReads = s.busyReads := rfl

@[simp] theorem State.respondOkay_hardResets (s : State) (v : Word) :
    (s.respondOkay v).hardResets = s.hardResets := rfl

/-! ### respondError -/

@[simp] theorem State.respondError_params (s : State) : s.respondError.params = s.params := rfl

@[simp] theorem State.respondError_ieDone (s : State) : s.respondError.ieDone = s.ieDone := rfl

@[simp] theorem State.respondError_ieErr (s : State) : s.respondError.ieErr = s.ieErr := rfl

@[simp] theorem State.respondError_done (s : State) : s.respondError.done = s.done := rfl

@[simp] theorem State.respondError_err (s : State) : s.respondError.err = s.err := rfl

@[simp] theorem State.respondError_errMulti (s : State) :
    s.respondError.errMulti = s.errMulti := rfl

@[simp] theorem State.respondError_locked (s : State) : s.respondError.locked = s.locked := rfl

@[simp] theorem State.respondError_errCode (s : State) : s.respondError.errCode = s.errCode := rfl

@[simp] theorem State.respondError_errInfo (s : State) : s.respondError.errInfo = s.errInfo := rfl

@[simp] theorem State.respondError_mem (s : State) : s.respondError.mem = s.mem := rfl

@[simp] theorem State.respondError_lut (s : State) : s.respondError.lut = s.lut := rfl

@[simp] theorem State.respondError_chain (s : State) : s.respondError.chain = s.chain := rfl

@[simp] theorem State.respondError_buf (s : State) : s.respondError.buf = s.buf := rfl

@[simp] theorem State.respondError_count (s : State) : s.respondError.count = s.count := rfl

@[simp] theorem State.respondError_pending (s : State) : s.respondError.pending = s.pending := rfl

@[simp] theorem State.respondError_events (s : State) : s.respondError.events = s.events := rfl

@[simp] theorem State.respondError_response (s : State) :
    s.respondError.response = some ⟨false, 0⟩ := rfl

@[simp] theorem State.respondError_busyReads (s : State) :
    s.respondError.busyReads = s.busyReads := rfl

@[simp] theorem State.respondError_hardResets (s : State) :
    s.respondError.hardResets = s.hardResets := rfl

/-! ### respondUnspecified -/

@[simp] theorem State.respondUnspecified_params (s : State) :
    s.respondUnspecified.params = s.params := rfl

@[simp] theorem State.respondUnspecified_ieDone (s : State) :
    s.respondUnspecified.ieDone = s.ieDone := rfl

@[simp] theorem State.respondUnspecified_ieErr (s : State) :
    s.respondUnspecified.ieErr = s.ieErr := rfl

@[simp] theorem State.respondUnspecified_done (s : State) :
    s.respondUnspecified.done = s.done := rfl

@[simp] theorem State.respondUnspecified_err (s : State) : s.respondUnspecified.err = s.err := rfl

@[simp] theorem State.respondUnspecified_errMulti (s : State) :
    s.respondUnspecified.errMulti = s.errMulti := rfl

@[simp] theorem State.respondUnspecified_locked (s : State) :
    s.respondUnspecified.locked = s.locked := rfl

@[simp] theorem State.respondUnspecified_errCode (s : State) :
    s.respondUnspecified.errCode = s.errCode := rfl

@[simp] theorem State.respondUnspecified_errInfo (s : State) :
    s.respondUnspecified.errInfo = s.errInfo := rfl

@[simp] theorem State.respondUnspecified_mem (s : State) : s.respondUnspecified.mem = s.mem := rfl

@[simp] theorem State.respondUnspecified_lut (s : State) : s.respondUnspecified.lut = s.lut := rfl

@[simp] theorem State.respondUnspecified_chain (s : State) :
    s.respondUnspecified.chain = s.chain := rfl

@[simp] theorem State.respondUnspecified_buf (s : State) : s.respondUnspecified.buf = s.buf := rfl

@[simp] theorem State.respondUnspecified_count (s : State) :
    s.respondUnspecified.count = s.count := rfl

@[simp] theorem State.respondUnspecified_pending (s : State) :
    s.respondUnspecified.pending = s.pending := rfl

@[simp] theorem State.respondUnspecified_events (s : State) :
    s.respondUnspecified.events = s.events := rfl

@[simp] theorem State.respondUnspecified_response (s : State) :
    s.respondUnspecified.response = some ⟨true, Config.busyRead s.busyReads⟩ := rfl

@[simp] theorem State.respondUnspecified_busyReads (s : State) :
    s.respondUnspecified.busyReads = s.busyReads + 1 := rfl

@[simp] theorem State.respondUnspecified_hardResets (s : State) :
    s.respondUnspecified.hardResets = s.hardResets := rfl

/-! ### clearError -/

@[simp] theorem State.clearError_params (s : State) : s.clearError.params = s.params := rfl

@[simp] theorem State.clearError_ieDone (s : State) : s.clearError.ieDone = s.ieDone := rfl

@[simp] theorem State.clearError_ieErr (s : State) : s.clearError.ieErr = s.ieErr := rfl

@[simp] theorem State.clearError_done (s : State) : s.clearError.done = s.done := rfl

@[simp] theorem State.clearError_err (s : State) : s.clearError.err = false := rfl

@[simp] theorem State.clearError_errMulti (s : State) : s.clearError.errMulti = false := rfl

@[simp] theorem State.clearError_locked (s : State) : s.clearError.locked = s.locked := rfl

@[simp] theorem State.clearError_errCode (s : State) : s.clearError.errCode = .none := rfl

@[simp] theorem State.clearError_errInfo (s : State) : s.clearError.errInfo = 0 := rfl

@[simp] theorem State.clearError_mem (s : State) : s.clearError.mem = s.mem := rfl

@[simp] theorem State.clearError_lut (s : State) : s.clearError.lut = s.lut := rfl

@[simp] theorem State.clearError_chain (s : State) : s.clearError.chain = s.chain := rfl

@[simp] theorem State.clearError_buf (s : State) : s.clearError.buf = s.buf := rfl

@[simp] theorem State.clearError_count (s : State) : s.clearError.count = s.count := rfl

@[simp] theorem State.clearError_pending (s : State) : s.clearError.pending = s.pending := rfl

@[simp] theorem State.clearError_events (s : State) : s.clearError.events = s.events := rfl

@[simp] theorem State.clearError_response (s : State) : s.clearError.response = s.response := rfl

@[simp] theorem State.clearError_busyReads (s : State) : s.clearError.busyReads = s.busyReads := rfl

@[simp] theorem State.clearError_hardResets (s : State) :
    s.clearError.hardResets = s.hardResets := rfl

/-! ### complete -/

@[simp] theorem State.complete_params (s : State) : s.complete.params = s.params := rfl

@[simp] theorem State.complete_ieDone (s : State) : s.complete.ieDone = s.ieDone := rfl

@[simp] theorem State.complete_ieErr (s : State) : s.complete.ieErr = s.ieErr := rfl

@[simp] theorem State.complete_done (s : State) : s.complete.done = true := rfl

@[simp] theorem State.complete_err (s : State) : s.complete.err = s.err := rfl

@[simp] theorem State.complete_errMulti (s : State) : s.complete.errMulti = s.errMulti := rfl

@[simp] theorem State.complete_locked (s : State) : s.complete.locked = s.locked := rfl

@[simp] theorem State.complete_errCode (s : State) : s.complete.errCode = s.errCode := rfl

@[simp] theorem State.complete_errInfo (s : State) : s.complete.errInfo = s.errInfo := rfl

@[simp] theorem State.complete_mem (s : State) : s.complete.mem = s.mem := rfl

@[simp] theorem State.complete_lut (s : State) : s.complete.lut = s.lut := rfl

@[simp] theorem State.complete_chain (s : State) : s.complete.chain = s.chain := rfl

@[simp] theorem State.complete_buf (s : State) : s.complete.buf = s.buf := rfl

@[simp] theorem State.complete_count (s : State) : s.complete.count = s.count := rfl

@[simp] theorem State.complete_pending (s : State) : s.complete.pending = none := rfl

@[simp] theorem State.complete_events (s : State) : s.complete.events = s.events := rfl

@[simp] theorem State.complete_response (s : State) : s.complete.response = s.response := rfl

@[simp] theorem State.complete_busyReads (s : State) : s.complete.busyReads = s.busyReads := rfl

@[simp] theorem State.complete_hardResets (s : State) : s.complete.hardResets = s.hardResets := rfl

/-! ### commitMatrix -/

@[simp] theorem State.commitMatrix_params (s : State) : s.commitMatrix.params = s.params := rfl

@[simp] theorem State.commitMatrix_ieDone (s : State) : s.commitMatrix.ieDone = s.ieDone := rfl

@[simp] theorem State.commitMatrix_ieErr (s : State) : s.commitMatrix.ieErr = s.ieErr := rfl

@[simp] theorem State.commitMatrix_done (s : State) : s.commitMatrix.done = s.done := rfl

@[simp] theorem State.commitMatrix_err (s : State) : s.commitMatrix.err = s.err := rfl

@[simp] theorem State.commitMatrix_errMulti (s : State) :
    s.commitMatrix.errMulti = s.errMulti := rfl

@[simp] theorem State.commitMatrix_locked (s : State) : s.commitMatrix.locked = true := rfl

@[simp] theorem State.commitMatrix_errCode (s : State) : s.commitMatrix.errCode = s.errCode := rfl

@[simp] theorem State.commitMatrix_errInfo (s : State) : s.commitMatrix.errInfo = s.errInfo := rfl

@[simp] theorem State.commitMatrix_mem (s : State) : s.commitMatrix.mem = s.mem := rfl

@[simp] theorem State.commitMatrix_lut (s : State) :
    s.commitMatrix.lut = if s.params.lutImpl then s.buildLut else s.lut := rfl

@[simp] theorem State.commitMatrix_chain (s : State) : s.commitMatrix.chain = s.chain := rfl

@[simp] theorem State.commitMatrix_buf (s : State) : s.commitMatrix.buf = s.buf := rfl

@[simp] theorem State.commitMatrix_count (s : State) : s.commitMatrix.count = s.count := rfl

@[simp] theorem State.commitMatrix_pending (s : State) : s.commitMatrix.pending = s.pending := rfl

@[simp] theorem State.commitMatrix_events (s : State) : s.commitMatrix.events = s.events := rfl

@[simp] theorem State.commitMatrix_response (s : State) :
    s.commitMatrix.response = s.response := rfl

@[simp] theorem State.commitMatrix_busyReads (s : State) :
    s.commitMatrix.busyReads = s.busyReads := rfl

@[simp] theorem State.commitMatrix_hardResets (s : State) :
    s.commitMatrix.hardResets = s.hardResets := rfl

/-! ### softReset -/

@[simp] theorem State.softReset_params (s : State) : s.softReset.params = s.params := rfl

@[simp] theorem State.softReset_ieDone (s : State) : s.softReset.ieDone = false := rfl

@[simp] theorem State.softReset_ieErr (s : State) : s.softReset.ieErr = false := rfl

@[simp] theorem State.softReset_done (s : State) : s.softReset.done = false := rfl

@[simp] theorem State.softReset_err (s : State) : s.softReset.err = false := rfl

@[simp] theorem State.softReset_errMulti (s : State) : s.softReset.errMulti = false := rfl

@[simp] theorem State.softReset_locked (s : State) : s.softReset.locked = false := rfl

@[simp] theorem State.softReset_errCode (s : State) : s.softReset.errCode = .none := rfl

@[simp] theorem State.softReset_errInfo (s : State) : s.softReset.errInfo = 0 := rfl

@[simp] theorem State.softReset_mem (s : State) : s.softReset.mem = Memory.matrixPart s.mem := rfl

@[simp] theorem State.softReset_lut (s : State) : s.softReset.lut = [] := rfl

@[simp] theorem State.softReset_chain (s : State) :
    s.softReset.chain = List.replicate (8 * s.params.n) 0 := rfl

@[simp] theorem State.softReset_buf (s : State) : s.softReset.buf = [] := rfl

@[simp] theorem State.softReset_count (s : State) : s.softReset.count = 0 := rfl

@[simp] theorem State.softReset_pending (s : State) : s.softReset.pending = none := rfl

@[simp] theorem State.softReset_events (s : State) : s.softReset.events = s.events := rfl

@[simp] theorem State.softReset_response (s : State) : s.softReset.response = s.response := rfl

@[simp] theorem State.softReset_busyReads (s : State) : s.softReset.busyReads = s.busyReads := rfl

@[simp] theorem State.softReset_hardResets (s : State) :
    s.softReset.hardResets = s.hardResets := rfl

/-! ### hardReset -/

@[simp] theorem State.hardReset_params (s : State) : s.hardReset.params = s.params := rfl

@[simp] theorem State.hardReset_ieDone (s : State) : s.hardReset.ieDone = false := rfl

@[simp] theorem State.hardReset_ieErr (s : State) : s.hardReset.ieErr = false := rfl

@[simp] theorem State.hardReset_done (s : State) : s.hardReset.done = false := rfl

@[simp] theorem State.hardReset_err (s : State) : s.hardReset.err = false := rfl

@[simp] theorem State.hardReset_errMulti (s : State) : s.hardReset.errMulti = false := rfl

@[simp] theorem State.hardReset_locked (s : State) : s.hardReset.locked = false := rfl

@[simp] theorem State.hardReset_errCode (s : State) : s.hardReset.errCode = .none := rfl

@[simp] theorem State.hardReset_errInfo (s : State) : s.hardReset.errInfo = 0 := rfl

@[simp] theorem State.hardReset_mem (s : State) : s.hardReset.mem = [] := rfl

@[simp] theorem State.hardReset_lut (s : State) : s.hardReset.lut = [] := rfl

@[simp] theorem State.hardReset_chain (s : State) :
    s.hardReset.chain = List.replicate (8 * s.params.n) 0 := rfl

@[simp] theorem State.hardReset_buf (s : State) : s.hardReset.buf = [] := rfl

@[simp] theorem State.hardReset_count (s : State) : s.hardReset.count = 0 := rfl

@[simp] theorem State.hardReset_pending (s : State) : s.hardReset.pending = none := rfl

@[simp] theorem State.hardReset_events (s : State) : s.hardReset.events = s.events := rfl

@[simp] theorem State.hardReset_response (s : State) : s.hardReset.response = none := rfl

@[simp] theorem State.hardReset_busyReads (s : State) : s.hardReset.busyReads = s.busyReads := rfl

@[simp] theorem State.hardReset_hardResets (s : State) :
    s.hardReset.hardResets = s.hardResets + 1 := rfl

/-! ### raise and accessError: what an error leaves alone (60_exceptions.md R172) -/

@[simp] theorem State.raise_params (s : State) (e : ErrorCode) (x : BitVec 32) :
    (s.raise e x).params = s.params := by
  unfold State.raise; split <;> rfl

@[simp] theorem State.accessError_params (s : State) (e : ErrorCode) (o : Offset) :
    (s.accessError e o).params = s.params := by
  simp [State.accessError]

@[simp] theorem State.raise_ieDone (s : State) (e : ErrorCode) (x : BitVec 32) :
    (s.raise e x).ieDone = s.ieDone := by
  unfold State.raise; split <;> rfl

@[simp] theorem State.accessError_ieDone (s : State) (e : ErrorCode) (o : Offset) :
    (s.accessError e o).ieDone = s.ieDone := by
  simp [State.accessError]

@[simp] theorem State.raise_ieErr (s : State) (e : ErrorCode) (x : BitVec 32) :
    (s.raise e x).ieErr = s.ieErr := by
  unfold State.raise; split <;> rfl

@[simp] theorem State.accessError_ieErr (s : State) (e : ErrorCode) (o : Offset) :
    (s.accessError e o).ieErr = s.ieErr := by
  simp [State.accessError]

@[simp] theorem State.raise_done (s : State) (e : ErrorCode) (x : BitVec 32) :
    (s.raise e x).done = s.done := by
  unfold State.raise; split <;> rfl

@[simp] theorem State.accessError_done (s : State) (e : ErrorCode) (o : Offset) :
    (s.accessError e o).done = s.done := by
  simp [State.accessError]

@[simp] theorem State.raise_locked (s : State) (e : ErrorCode) (x : BitVec 32) :
    (s.raise e x).locked = s.locked := by
  unfold State.raise; split <;> rfl

@[simp] theorem State.accessError_locked (s : State) (e : ErrorCode) (o : Offset) :
    (s.accessError e o).locked = s.locked := by
  simp [State.accessError]

@[simp] theorem State.raise_mem (s : State) (e : ErrorCode) (x : BitVec 32) :
    (s.raise e x).mem = s.mem := by
  unfold State.raise; split <;> rfl

@[simp] theorem State.accessError_mem (s : State) (e : ErrorCode) (o : Offset) :
    (s.accessError e o).mem = s.mem := by
  simp [State.accessError]

@[simp] theorem State.raise_lut (s : State) (e : ErrorCode) (x : BitVec 32) :
    (s.raise e x).lut = s.lut := by
  unfold State.raise; split <;> rfl

@[simp] theorem State.accessError_lut (s : State) (e : ErrorCode) (o : Offset) :
    (s.accessError e o).lut = s.lut := by
  simp [State.accessError]

@[simp] theorem State.raise_chain (s : State) (e : ErrorCode) (x : BitVec 32) :
    (s.raise e x).chain = s.chain := by
  unfold State.raise; split <;> rfl

@[simp] theorem State.accessError_chain (s : State) (e : ErrorCode) (o : Offset) :
    (s.accessError e o).chain = s.chain := by
  simp [State.accessError]

@[simp] theorem State.raise_buf (s : State) (e : ErrorCode) (x : BitVec 32) :
    (s.raise e x).buf = s.buf := by
  unfold State.raise; split <;> rfl

@[simp] theorem State.accessError_buf (s : State) (e : ErrorCode) (o : Offset) :
    (s.accessError e o).buf = s.buf := by
  simp [State.accessError]

@[simp] theorem State.raise_count (s : State) (e : ErrorCode) (x : BitVec 32) :
    (s.raise e x).count = s.count := by
  unfold State.raise; split <;> rfl

@[simp] theorem State.accessError_count (s : State) (e : ErrorCode) (o : Offset) :
    (s.accessError e o).count = s.count := by
  simp [State.accessError]

@[simp] theorem State.raise_pending (s : State) (e : ErrorCode) (x : BitVec 32) :
    (s.raise e x).pending = s.pending := by
  unfold State.raise; split <;> rfl

@[simp] theorem State.accessError_pending (s : State) (e : ErrorCode) (o : Offset) :
    (s.accessError e o).pending = s.pending := by
  simp [State.accessError]

@[simp] theorem State.raise_events (s : State) (e : ErrorCode) (x : BitVec 32) :
    (s.raise e x).events = s.events := by
  unfold State.raise; split <;> rfl

@[simp] theorem State.accessError_events (s : State) (e : ErrorCode) (o : Offset) :
    (s.accessError e o).events = s.events := by
  simp [State.accessError]

@[simp] theorem State.raise_response (s : State) (e : ErrorCode) (x : BitVec 32) :
    (s.raise e x).response = s.response := by
  unfold State.raise; split <;> rfl

@[simp] theorem State.raise_busyReads (s : State) (e : ErrorCode) (x : BitVec 32) :
    (s.raise e x).busyReads = s.busyReads := by
  unfold State.raise; split <;> rfl

@[simp] theorem State.accessError_busyReads (s : State) (e : ErrorCode) (o : Offset) :
    (s.accessError e o).busyReads = s.busyReads := by
  simp [State.accessError]

@[simp] theorem State.raise_hardResets (s : State) (e : ErrorCode) (x : BitVec 32) :
    (s.raise e x).hardResets = s.hardResets := by
  unfold State.raise; split <;> rfl

@[simp] theorem State.accessError_hardResets (s : State) (e : ErrorCode) (o : Offset) :
    (s.accessError e o).hardResets = s.hardResets := by
  simp [State.accessError]

@[simp] theorem State.accessError_response (s : State) (e : ErrorCode) (o : Offset) :
    (s.accessError e o).response = some ⟨false, 0⟩ := rfl

end Sys2Proof.Machine
end

