-- ==== Sys2Proof/Laws/Memory.lean ====
section
/-! SUPPORT. The memory's laws: read after write, and the canonical form that every memory
operation keeps (log 7). -/

namespace Sys2Proof.Machine

/-! ### Looking up -/

theorem Memory.lookup_cons (b : Nat) (w : Byte) (m : Memory) (x : Nat) :
    Memory.lookup ((b, w) :: m) x = if x = b then some w else m.lookup x := rfl

theorem Memory.lookup_insert (m : Memory) (a x : Nat) (v : Byte) :
    (m.insert a v).lookup x = if x = a then some v else m.lookup x := by
  induction m with
  | nil => rfl
  | cons c m ih =>
    obtain ⟨b, w⟩ := c
    unfold Memory.insert
    split
    · rfl
    · split
      · subst b
        by_cases h : x = a <;> simp [Memory.lookup_cons, h]
      · rw [Memory.lookup_cons, ih, Memory.lookup_cons]
        by_cases hx : x = a
        · subst x; simp [*]
        · simp [hx]

theorem Memory.lookup_filter (m : Memory) (p : Nat → Bool) (x : Nat) :
    Memory.lookup (m.filter fun c => p c.1) x = if p x then m.lookup x else none := by
  induction m with
  | nil => simp [Memory.lookup]
  | cons c m ih =>
    obtain ⟨b, w⟩ := c
    by_cases hp : p b
    · rw [List.filter_cons_of_pos (by simpa using hp), Memory.lookup_cons, ih, Memory.lookup_cons]
      by_cases hx : x = b
      · subst x; simp [hp]
      · simp [hx]
    · rw [List.filter_cons_of_neg (by simpa using hp), ih, Memory.lookup_cons]
      by_cases hx : x = b
      · subst x; simp [hp]
      · simp [hx]

theorem Memory.lookup_erase (m : Memory) (a x : Nat) :
    (m.erase a).lookup x = if x = a then none else m.lookup x := by
  rw [Memory.erase, Memory.lookup_filter m (fun b => b != a)]
  by_cases h : x = a <;> simp [h]

theorem Memory.lookup_matrixPart (m : Memory) (x : Nat) :
    m.matrixPart.lookup x = if matBase ≤ x then m.lookup x else none := by
  rw [Memory.matrixPart, Memory.lookup_filter m (fun b => decide (matBase ≤ b))]
  simp

/-- Read after write: what a byte reads as, listed or by default. -/
theorem Memory.value_writeByte (m : Memory) (a x : Nat) (v : Byte) :
    ((m.writeByte a v).lookup x <|> Memory.unlisted x)
      = if x = a then some v else (m.lookup x <|> Memory.unlisted x) := by
  unfold Memory.writeByte
  split
  · rename_i h
    rw [Memory.lookup_erase]
    by_cases hx : x = a
    · subst x; simp [h]
    · simp [hx]
  · rw [Memory.lookup_insert]
    by_cases hx : x = a <;> simp [hx]

theorem Memory.lookup_writeByte_self (m : Memory) (a : Nat) (v : Byte) :
    (m.writeByte a v).lookup a = if Memory.unlisted a = some v then none else some v := by
  unfold Memory.writeByte
  split <;> simp [Memory.lookup_erase, Memory.lookup_insert]

theorem Memory.lookup_writeByte_of_ne (m : Memory) {a x : Nat} (v : Byte) (h : x ≠ a) :
    (m.writeByte a v).lookup x = m.lookup x := by
  unfold Memory.writeByte
  split
  · simp [Memory.lookup_erase, h]
  · simp [Memory.lookup_insert, h]

/-- A written MAT byte is listed, whatever its value (log 7). -/
theorem Memory.lookup_writeByte_matrix (m : Memory) {a : Nat} (v : Byte) (h : matBase ≤ a) :
    (m.writeByte a v).lookup a = some v := by
  have : Memory.unlisted a = none := by simp [Memory.unlisted, Nat.not_lt.mpr h]
  simp [Memory.writeByte, this, Memory.lookup_insert]

/-! ### Reading the state's memory -/

theorem wordOf_congr {f g : Nat → Byte} (h : ∀ t < 8, f t = g t) : wordOf f = wordOf g := by
  simp only [wordOf, sigma64]
  simp only [h 0 (by omega), h 1 (by omega), h 2 (by omega), h 3 (by omega), h 4 (by omega),
    h 5 (by omega), h 6 (by omega), h 7 (by omega)]

theorem State.readByte_congr {s t : State} (hm : t.mem = s.mem) (hr : t.hardResets = s.hardResets)
    (a : Nat) : t.readByte a = s.readByte a := by
  simp [State.readByte, State.unlistedByte, hm, hr]

theorem State.loadWord_congr {s t : State} {a : Nat}
    (h : ∀ j < 8, t.readByte (a + j) = s.readByte (a + j)) : t.loadWord a = s.loadWord a := by
  exact wordOf_congr h

theorem State.readBytes_congr {s t : State} {a n : Nat}
    (h : ∀ j < n, t.readByte (a + j) = s.readByte (a + j)) : t.readBytes a n = s.readBytes a n := by
  refine List.map_congr_left fun j hj => h j (List.mem_range.mp hj)

@[simp] theorem State.readBytes_length (s : State) (a n : Nat) : (s.readBytes a n).length = n := by
  simp [State.readBytes]

theorem State.readBytes_getD (s : State) (a n j : Nat) :
    (s.readBytes a n).getD j 0 = if j < n then s.readByte (a + j) else 0 := by
  by_cases h : j < n <;> simp [State.readBytes, List.getD_eq_getElem?_getD, h]

/-- Read after write of one byte. -/
theorem State.readByte_writeByte (s : State) (a x : Nat) (v : Byte) :
    ({ s with mem := Memory.writeByte s.mem a v } : State).readByte x
      = if x = a then v else s.readByte x := by
  by_cases hx : x = a
  · subst x
    have hl := Memory.lookup_writeByte_self s.mem a v
    by_cases h : Memory.unlisted a = some v
    · rw [if_pos h] at hl
      simp [State.readByte, State.unlistedByte, hl, h]
    · rw [if_neg h] at hl
      simp [State.readByte, hl]
  · simp [State.readByte, State.unlistedByte, Memory.lookup_writeByte_of_ne _ _ hx, hx]

/-- Read after write of a string of bytes: the string where it was stored, the old byte elsewhere. -/
theorem State.readByte_storeBytes (s : State) (a : Nat) (vs : List Byte) (x : Nat) :
    (s.storeBytes a vs).readByte x
      = if a ≤ x ∧ x < a + vs.length then vs.getD (x - a) 0 else s.readByte x := by
  induction vs generalizing s a with
  | nil =>
    have : ¬ (a ≤ x ∧ x < a + ([] : List Byte).length) := by simp
    rw [if_neg this]; rfl
  | cons v vs ih =>
    have hstep : s.storeBytes a (v :: vs)
        = ({ s with mem := Memory.writeByte s.mem a v } : State).storeBytes (a + 1) vs := rfl
    rw [hstep, ih, State.readByte_writeByte]
    simp only [List.length_cons]
    by_cases hx : x = a
    · subst x
      rw [if_neg (by omega), if_pos rfl, if_pos (by omega)]
      simp
    · by_cases h1 : a + 1 ≤ x ∧ x < a + 1 + vs.length
      · have h2 : a ≤ x ∧ x < a + (vs.length + 1) := by omega
        have h3 : x - a = (x - (a + 1)) + 1 := by omega
        simp [h1, h2, h3]
      · have h2 : ¬ (a ≤ x ∧ x < a + (vs.length + 1)) := by omega
        rw [if_neg h1, if_neg h2, if_neg hx]

theorem State.readByte_storeBytes_of_outside (s : State) (a : Nat) (vs : List Byte) (x : Nat)
    (h : x < a ∨ a + vs.length ≤ x) : (s.storeBytes a vs).readByte x = s.readByte x := by
  rw [State.readByte_storeBytes, if_neg (by omega)]

theorem State.readBytes_storeBytes (s : State) (a : Nat) (vs : List Byte) :
    (s.storeBytes a vs).readBytes a vs.length = vs := by
  refine List.ext_getElem (by simp) fun j h1 h2 => ?_
  simp only [State.readBytes, List.getElem_map, List.getElem_range, State.readByte_storeBytes]
  simp [h2]

/-! ### Words and their bytes -/

@[simp] theorem le64_length (w : Word) : (le64 w).length = 8 := by simp [le64]

theorem le64_getD (w : Word) (t : Nat) : (le64 w).getD t 0 = if t < 8 then byteOf w t else 0 := by
  by_cases h : t < 8 <;> simp [le64, List.getD_eq_getElem?_getD, h]

/-- Shifting bytes into disjoint places and adding is putting them side by side. -/
theorem wordOf_eq_append (f : Nat → Byte) :
    wordOf f = f 7 ++ f 6 ++ f 5 ++ f 4 ++ f 3 ++ f 2 ++ f 1 ++ f 0 := by
  apply BitVec.eq_of_toNat_eq
  have h0 := (f 0).isLt
  have h1 := (f 1).isLt
  have h2 := (f 2).isLt
  have h3 := (f 3).isLt
  have h4 := (f 4).isLt
  have h5 := (f 5).isLt
  have h6 := (f 6).isLt
  have h7 := (f 7).isLt
  have key : ∀ (x y : Nat), y < 2 ^ 8 → x <<< 8 ||| y = x * 2 ^ 8 + y := by
    intro x y h
    rw [← Nat.shiftLeft_add_eq_or_of_lt h, Nat.shiftLeft_eq]
  rw [BitVec.toNat_append, key _ _ h0, BitVec.toNat_append, key _ _ h1, BitVec.toNat_append,
    key _ _ h2, BitVec.toNat_append, key _ _ h3, BitVec.toNat_append, key _ _ h4,
    BitVec.toNat_append, key _ _ h5, BitVec.toNat_append, key _ _ h6]
  simp only [wordOf, sigma64, BitVec.toNat_add, BitVec.toNat_shiftLeft,
    BitVec.truncate_eq_setWidth, BitVec.toNat_setWidth, Nat.shiftLeft_eq, Nat.add_mod_mod,
    Nat.mod_add_mod, Nat.mod_mul_mod]
  generalize (f 0).toNat = x0 at *
  generalize (f 1).toNat = x1 at *
  generalize (f 2).toNat = x2 at *
  generalize (f 3).toNat = x3 at *
  generalize (f 4).toNat = x4 at *
  generalize (f 5).toNat = x5 at *
  generalize (f 6).toNat = x6 at *
  generalize (f 7).toNat = x7 at *
  rw [Nat.mod_eq_of_lt]
  · simp; ring
  · simp; omega

theorem wordOf_byteOf (w : Word) : wordOf (byteOf w) = w := by
  rw [wordOf_eq_append]
  apply BitVec.eq_of_getLsbD_eq
  intro i hi
  simp only [byteOf, BitVec.getLsbD_append, BitVec.getLsbD_extractLsb']
  interval_cases i <;> simp

theorem byteOf_wordOf (f : Nat → Byte) {t : Nat} (h : t < 8) : byteOf (wordOf f) t = f t := by
  rw [wordOf_eq_append]
  apply BitVec.eq_of_getLsbD_eq
  intro i hi
  simp only [byteOf, BitVec.getLsbD_append, BitVec.getLsbD_extractLsb']
  interval_cases t <;> interval_cases i <;> simp

@[simp] theorem u64_le64 (w : Word) : u64 (le64 w) = w := by
  rw [u64, ← wordOf_byteOf w]
  refine wordOf_congr fun t ht => ?_
  rw [wordOf_byteOf, le64_getD, if_pos ht]

/-- A stored word loads back. -/
theorem State.loadWord_storeWord (s : State) (a : Nat) (v : Word) :
    (s.storeWord a v).loadWord a = v := by
  rw [State.loadWord]
  conv_rhs => rw [← wordOf_byteOf v]
  refine wordOf_congr fun t ht => ?_
  rw [State.storeWord, State.readByte_storeBytes, le64_length, if_pos (by omega), le64_getD]
  simp [ht]

/-! ### The canonical form -/

theorem Memory.risingFrom_mono {lo lo' : Nat} {m : Memory} (h : lo' ≤ lo)
    (hm : Memory.risingFrom lo m = true) : Memory.risingFrom lo' m = true := by
  cases m with
  | nil => rfl
  | cons c m =>
    simp only [Memory.risingFrom, Bool.and_eq_true, decide_eq_true_eq] at hm ⊢
    exact ⟨by omega, hm.2⟩

theorem Memory.risingFrom_insert {lo a : Nat} {m : Memory} (v : Byte) (h : lo ≤ a)
    (hm : Memory.risingFrom lo m = true) : Memory.risingFrom lo (m.insert a v) = true := by
  induction m generalizing lo with
  | nil => simp [Memory.insert, Memory.risingFrom, h]
  | cons c m ih =>
    obtain ⟨b, w⟩ := c
    simp only [Memory.risingFrom, Bool.and_eq_true, decide_eq_true_eq] at hm
    unfold Memory.insert
    split
    · simp only [Memory.risingFrom, Bool.and_eq_true, decide_eq_true_eq]
      exact ⟨h, by omega, hm.2⟩
    · split
      · subst b
        simp only [Memory.risingFrom, Bool.and_eq_true, decide_eq_true_eq]
        exact ⟨h, hm.2⟩
      · simp only [Memory.risingFrom, Bool.and_eq_true, decide_eq_true_eq]
        exact ⟨hm.1, ih (by omega) hm.2⟩

theorem Memory.risingFrom_filter {lo : Nat} {m : Memory} (p : Host.Cell → Bool)
    (hm : Memory.risingFrom lo m = true) : Memory.risingFrom lo (m.filter p) = true := by
  induction m generalizing lo with
  | nil => rfl
  | cons c m ih =>
    simp only [Memory.risingFrom, Bool.and_eq_true, decide_eq_true_eq] at hm
    by_cases hp : p c
    · rw [List.filter_cons_of_pos hp]
      simp only [Memory.risingFrom, Bool.and_eq_true, decide_eq_true_eq]
      exact ⟨hm.1, ih hm.2⟩
    · rw [List.filter_cons_of_neg hp]
      exact ih (Memory.risingFrom_mono (by omega) hm.2)

theorem Memory.mem_insert {m : Memory} {a : Nat} {v : Byte} {c : Host.Cell}
    (h : c ∈ m.insert a v) : c = (a, v) ∨ c ∈ m := by
  induction m with
  | nil => simpa [Memory.insert] using h
  | cons d m ih =>
    obtain ⟨b, w⟩ := d
    unfold Memory.insert at h
    split at h
    · simpa using h
    · split at h
      · rcases List.mem_cons.mp h with h | h
        · exact .inl h
        · exact .inr (List.mem_cons_of_mem _ h)
      · rcases List.mem_cons.mp h with h | h
        · exact .inr (h ▸ List.mem_cons_self)
        · rcases ih h with h | h
          · exact .inl h
          · exact .inr (List.mem_cons_of_mem _ h)

theorem Memory.mem_writeByte {m : Memory} {a : Nat} {v : Byte} {c : Host.Cell}
    (h : c ∈ m.writeByte a v) : c = (a, v) ∨ c ∈ m := by
  unfold Memory.writeByte at h
  split at h
  · exact .inr (List.mem_of_mem_filter h)
  · exact Memory.mem_insert h

/-- What a store lists was listed before or lies where the store wrote. -/
theorem Memory.mem_storeBytes {m : Memory} {a : Nat} {vs : List Byte} {c : Host.Cell}
    (h : c ∈ m.storeBytes a vs) : c ∈ m ∨ (a ≤ c.1 ∧ c.1 < a + vs.length) := by
  induction vs generalizing m a with
  | nil => exact .inl h
  | cons v vs ih =>
    rcases ih h with h | h
    · rcases Memory.mem_writeByte h with h | h
      · subst h; right; simp
      · exact .inl h
    · right
      simp only [List.length_cons]
      omega

theorem Memory.wf_filter {m : Memory} (p : Host.Cell → Bool) (hm : m.wf = true) :
    Memory.wf (m.filter p) = true := by
  simp only [Memory.wf, Bool.and_eq_true] at hm ⊢
  refine ⟨Memory.risingFrom_filter p hm.1, ?_⟩
  rw [List.all_eq_true] at hm ⊢
  exact fun c hc => hm.2 c (List.mem_of_mem_filter hc)

theorem Memory.wf_writeByte {m : Memory} (a : Nat) (v : Byte) (hm : m.wf = true) :
    (m.writeByte a v).wf = true := by
  unfold Memory.writeByte
  split
  · exact Memory.wf_filter _ hm
  · rename_i hne
    simp only [Memory.wf, Bool.and_eq_true] at hm ⊢
    refine ⟨Memory.risingFrom_insert v (Nat.zero_le a) hm.1, ?_⟩
    rw [List.all_eq_true] at hm ⊢
    intro c hc
    rcases Memory.mem_insert hc with h | h
    · subst h; simpa using hne
    · exact hm.2 c h

/-- Every store keeps the canonical form. -/
theorem Memory.wf_storeBytes {m : Memory} (a : Nat) (vs : List Byte) (hm : m.wf = true) :
    (m.storeBytes a vs).wf = true := by
  induction vs generalizing m a with
  | nil => exact hm
  | cons v vs ih => exact ih (a + 1) (Memory.wf_writeByte a v hm)

/-- A soft reset keeps the canonical form. -/
theorem Memory.wf_matrixPart {m : Memory} (hm : m.wf = true) : m.matrixPart.wf = true :=
  Memory.wf_filter _ hm

/-- The reset memory is in canonical form. -/
theorem State.resetFor_mem_wf (p : Params) : Memory.wf (State.resetFor p).mem = true := rfl

/-- A store below MAT lists nothing in MAT and takes nothing from it. -/
theorem Memory.lookup_storeBytes_of_outside {m : Memory} {a : Nat} {vs : List Byte} {x : Nat}
    (h : x < a ∨ a + vs.length ≤ x) : (m.storeBytes a vs).lookup x = m.lookup x := by
  induction vs generalizing m a with
  | nil => rfl
  | cons v vs ih =>
    simp only [List.length_cons] at h
    rw [Memory.storeBytes, ih (by omega), Memory.lookup_writeByte_of_ne _ _ (by omega)]

/-- A stored MAT byte is listed. -/
theorem Memory.lookup_storeBytes_matrix {m : Memory} {a : Nat} {vs : List Byte} {x : Nat}
    (hm : matBase ≤ a) (h : a ≤ x ∧ x < a + vs.length) :
    (m.storeBytes a vs).lookup x = some (vs.getD (x - a) 0) := by
  induction vs generalizing m a with
  | nil => simp only [List.length_nil] at h; omega
  | cons v vs ih =>
    simp only [List.length_cons] at h
    rw [Memory.storeBytes]
    by_cases hx : x = a
    · subst x
      rw [Memory.lookup_storeBytes_of_outside (by omega), Memory.lookup_writeByte_matrix _ _ hm]
      simp
    · rw [ih (by omega) (by omega)]
      have : x - a = (x - (a + 1)) + 1 := by omega
      simp [this]

end Sys2Proof.Machine
end

