-- ==== Sys2Proof/Laws/Ops.lean ====
section
/-! SUPPORT. What each shared operation can do, said once: the address map, error entry, the
presentation of a command, and the host's accesses. -/

namespace Sys2Proof.Machine

/-! ### Sizes (00_scope.md R2, R3) -/

theorem params_inputLen_mod (p : Params) : p.inputLen % 8 = 0 := by
  have := p.m_mod
  simp only [Params.inputLen]
  omega

theorem params_blockSize_add (p : Params) : p.blockSize + 8 * p.n = p.inputLen := by
  have := p.m_low
  simp only [Params.blockSize, Params.inputLen]
  omega

theorem params_blockSize_low (p : Params) : 16 ≤ p.blockSize := by
  have := p.m_low
  simp only [Params.blockSize]
  omega

theorem params_blockSize_high (p : Params) : p.blockSize ≤ 4088 := by
  have := p.m_high
  have := p.n_pos
  simp only [Params.blockSize]
  omega

theorem params_blockSize_mod (p : Params) : p.blockSize % 8 = 0 := by
  have := params_inputLen_mod p
  have := params_blockSize_add p
  omega

theorem params_inputLen_high (p : Params) : p.inputLen ≤ 4096 := by
  have := p.m_high
  simp only [Params.inputLen]
  omega

theorem params_outputLen_high (p : Params) : p.outputLen ≤ 4080 := by
  have := p.m_high
  have := p.m_low
  simp only [Params.outputLen]
  omega

/-- `8·N·M < 2^27` (20_memory.md R62). -/
theorem params_matrix_high (p : Params) : 8 * p.matWords < 2 ^ 27 := by
  have h1 : p.n ≤ 510 := by
    have := p.m_high
    have := p.m_low
    omega
  have h2 : p.n * p.m ≤ 510 * 32768 := Nat.mul_le_mul h1 p.m_high
  simp only [Params.matWords]
  omega

/-! ### The address map (20_memory.md R62) -/

theorem within_iff (b z a : Nat) : Params.within b z a = true ↔ b ≤ a ∧ a < b + z := by
  simp [Params.within]

theorem within_eq_false {b z a : Nat} (h : ¬ (b ≤ a ∧ a < b + z)) : Params.within b z a = false := by
  rw [← Bool.not_eq_true, within_iff]
  exact h

/-- A mapped offset lies in a range of the table with its name. -/
theorem region_mem {p : Params} {a : Nat} {r : Region} (h : p.region a = some r) :
    ∃ b z, (b, z, r) ∈ p.addressMap ∧ b ≤ a ∧ a < b + z := by
  unfold Params.region at h
  rw [Option.map_eq_some_iff] at h
  obtain ⟨⟨b, z, r'⟩, hf, rfl⟩ := h
  have hw : Params.within b z a = true := by simpa using List.find?_some hf
  exact ⟨b, z, List.mem_of_find?_eq_some hf, (within_iff _ _ _).mp hw⟩

/-- Each range of the table ends before the next one starts. -/
theorem addressMap_apart (p : Params) :
    p.addressMap.Pairwise fun e f => e.1 + e.2.1 ≤ f.1 := by
  have ho := params_outputLen_high p
  have hi := params_inputLen_high p
  have hs := params_blockSize_high p
  simp [Params.addressMap, outBase, inBase, saltBase, matBase]
  omega

/-- In a table whose ranges are apart, an offset lies in one range. -/
theorem range_unique {l : List (Nat × Nat × Region)} (hl : l.Pairwise fun e f => e.1 + e.2.1 ≤ f.1)
    {a : Nat} {e f : Nat × Nat × Region} (he : e ∈ l) (hf : f ∈ l) (hea : e.1 ≤ a ∧ a < e.1 + e.2.1)
    (hfa : f.1 ≤ a ∧ a < f.1 + f.2.1) : e = f := by
  induction hl with
  | nil => cases he
  | cons hhead _ ih =>
    cases he with
    | head =>
      cases hf with
      | head => rfl
      | tail _ hf =>
        have := hhead _ hf
        omega
    | tail _ he =>
      cases hf with
      | head =>
        have := hhead _ he
        omega
      | tail _ hf => exact ih he hf

/-- An offset in a range of the table has the range's name. -/
theorem region_of_mem {p : Params} {a b z : Nat} {r : Region} (hm : (b, z, r) ∈ p.addressMap)
    (ha : b ≤ a ∧ a < b + z) : p.region a = some r := by
  unfold Params.region
  rw [Option.map_eq_some_iff]
  cases hf : p.addressMap.find? fun e => Params.within e.1 e.2.1 a with
  | none =>
    rw [List.find?_eq_none] at hf
    exact absurd ((within_iff _ _ _).mpr ha) (hf _ hm)
  | some e =>
    have hw : Params.within e.1 e.2.1 a = true := by simpa using List.find?_some hf
    have he : e = (b, z, r) := range_unique (addressMap_apart p) (List.mem_of_find?_eq_some hf) hm
      ((within_iff _ _ _).mp hw) ha
    exact ⟨e, rfl, by rw [he]⟩

/-- A name of the table stands for one range. -/
theorem region_range {p : Params} {a b z : Nat} {r : Region} (h : p.region a = some r)
    (hm : (b, z, r) ∈ p.addressMap) : b ≤ a ∧ a < b + z := by
  obtain ⟨b', z', hm', ha⟩ := region_mem h
  have hnames : p.addressMap.Pairwise fun e f => e.2.2 ≠ f.2.2 := by simp [Params.addressMap]
  have hinj := List.inj_on_of_nodup_map (List.pairwise_map.mpr hnames) hm' hm rfl
  cases hinj
  exact ha

theorem region_out {p : Params} {a : Nat} (h : p.region a = some .out) :
    outBase ≤ a ∧ a < outBase + p.outputLen := region_range h (by simp [Params.addressMap])

theorem region_inp {p : Params} {a : Nat} (h : p.region a = some .inp) :
    inBase ≤ a ∧ a < inBase + p.inputLen := region_range h (by simp [Params.addressMap])

theorem region_salt {p : Params} {a : Nat} (h : p.region a = some .salt) :
    saltBase ≤ a ∧ a < saltBase + p.blockSize := region_range h (by simp [Params.addressMap])

theorem region_mat {p : Params} {a : Nat} (h : p.region a = some .mat) :
    matBase ≤ a ∧ a < matBase + 8 * p.matWords := region_range h (by simp [Params.addressMap])

theorem region_ctrl {p : Params} {a : Nat} (h : p.region a = some .ctrl) :
    0x010 ≤ a ∧ a < 0x010 + 8 := region_range h (by simp [Params.addressMap])

theorem region_status {p : Params} {a : Nat} (h : p.region a = some .status) :
    0x018 ≤ a ∧ a < 0x018 + 8 := region_range h (by simp [Params.addressMap])

theorem region_cmd {p : Params} {a : Nat} (h : p.region a = some .cmd) :
    0x028 ≤ a ∧ a < 0x028 + 8 := region_range h (by simp [Params.addressMap])

theorem region_of_out {p : Params} {a : Nat} (h : outBase ≤ a ∧ a < outBase + p.outputLen) :
    p.region a = some .out :=
  region_of_mem (by simp [Params.addressMap]) h

theorem region_of_inp {p : Params} {a : Nat} (h : inBase ≤ a ∧ a < inBase + p.inputLen) :
    p.region a = some .inp :=
  region_of_mem (by simp [Params.addressMap]) h

theorem region_of_salt {p : Params} {a : Nat} (h : saltBase ≤ a ∧ a < saltBase + p.blockSize) :
    p.region a = some .salt :=
  region_of_mem (by simp [Params.addressMap]) h

theorem region_of_mat {p : Params} {a : Nat} (h : matBase ≤ a ∧ a < matBase + 8 * p.matWords) :
    p.region a = some .mat :=
  region_of_mem (by simp [Params.addressMap]) h

theorem accessOk_iff (off : Offset) (size : Nat) :
    accessOk off size = true ↔ size = 8 ∧ off.toNat % 8 = 0 := by
  simp [accessOk]

/-! ### Error entry (60_exceptions.md R172) -/

theorem State.raise_of_quiet {s : State} (h : s.err = false) (e : ErrorCode) (x : BitVec 32) :
    s.raise e x = { s with err := true, errCode := e, errInfo := x } := by
  simp [State.raise, h]

theorem State.raise_of_err {s : State} (h : s.err = true) (e : ErrorCode) (x : BitVec 32) :
    s.raise e x = { s with errMulti := true } := by
  simp [State.raise, h]

@[simp] theorem State.raise_err (s : State) (e : ErrorCode) (x : BitVec 32) :
    (s.raise e x).err = true := by
  unfold State.raise
  split <;> simp_all

@[simp] theorem State.accessError_err (s : State) (e : ErrorCode) (o : Offset) :
    (s.accessError e o).err = true := by
  simp [State.accessError]

/-- An error changes the error record alone. -/
theorem State.raise_frame (s : State) (e : ErrorCode) (x : BitVec 32) :
    s.raise e x = { s with
      err := (s.raise e x).err
      errMulti := (s.raise e x).errMulti
      errCode := (s.raise e x).errCode
      errInfo := (s.raise e x).errInfo } := by
  unfold State.raise
  split <;> rfl

/-- The recorded code is the first error's (60_exceptions.md R172). -/
theorem State.raise_errCode (s : State) (e : ErrorCode) (x : BitVec 32) :
    (s.raise e x).errCode = if s.err then s.errCode else e := by
  unfold State.raise
  split <;> simp_all

/-! ### Presenting a command (40_compressor.md R111) -/

theorem lockError_ne_none {l : Bool} {i : Instr} : lockError l i ≠ some .none := by
  cases i <;> cases l <;> simp [lockError]

theorem wordError_ne_none {p : Params} {l : Bool} {c : Word} : wordError p l c ≠ some .none := by
  unfold wordError
  split
  · rename_i e _; cases e <;> simp [codeOfCommandError]
  · rename_i i _
    unfold commandError
    have := @lockError_ne_none l i
    split
    · rename_i e h; rw [h] at this; exact this
    · split <;> simp

/-- A presented word is rejected with an error, or it becomes pending. -/
theorem State.present_cases (s : State) (c : Word) :
    (∃ e, e ≠ .none ∧ s.presentError c = some e ∧ s.present c = s.raise e (c.extractLsb' 0 32)) ∨
    (s.pending = none ∧ wordError s.params s.locked c = none
      ∧ s.present c = { s with pending := some c }) := by
  unfold State.present
  cases h : s.presentError c with
  | some e =>
    refine .inl ⟨e, ?_, rfl, rfl⟩
    rintro rfl
    unfold State.presentError at h
    split at h
    · simp at h
    · exact wordError_ne_none h
  | none =>
    refine .inr ?_
    unfold State.presentError at h
    split at h
    · simp at h
    · rename_i hb
      refine ⟨?_, h, rfl⟩
      simpa [State.busy] using hb

/-! ### The host's accesses (20_memory.md R67, R68) -/

/-- A read raises an access error, or answers and changes nothing else. -/
theorem State.hostRead_cases (s : State) (off : Offset) (size : Nat) :
    (∃ e, e ≠ .none ∧ s.hostRead off size = s.accessError e off) ∨
    s.hostRead off size = s.respondUnspecified ∨
    (∃ d, s.hostRead off size = s.respondOkay d) := by
  unfold State.hostRead
  split
  · split
    · exact .inl ⟨_, by simp, rfl⟩
    · unfold State.readRegion
      split
      · exact .inr (.inl rfl)
      · exact .inr (.inr ⟨_, rfl⟩)
  · exact .inl ⟨_, by simp, rfl⟩

/-- A write raises an access error, writes CTRL, STATUS or CMD, or stores a word in IN, SALT or
MAT. -/
theorem State.hostWrite_cases (s : State) (off : Offset) (size : Nat) (v : Word) :
    (∃ e, e ≠ .none ∧ s.hostWrite off size v = s.accessError e off) ∨
    (size = 8 ∧ off = 0x010 ∧ s.hostWrite off size v = (s.writeCtrl v).respondOkay 0) ∨
    (size = 8 ∧ off = 0x018 ∧ s.hostWrite off size v = (s.writeStatus v).respondOkay 0) ∨
    (size = 8 ∧ off = 0x028 ∧ s.hostWrite off size v = (s.present v).respondOkay 0) ∨
    (size = 8 ∧ off.toNat % 8 = 0 ∧ s.pending = none
      ∧ (s.params.region off.toNat = some .inp ∨ s.params.region off.toNat = some .salt
        ∨ (s.params.region off.toNat = some .mat ∧ s.locked = false))
      ∧ s.hostWrite off size v = (s.storeWord off.toNat v).respondOkay 0) := by
  unfold State.hostWrite
  split
  · rename_i hok
    rw [accessOk_iff] at hok
    obtain ⟨hs, ha⟩ := hok
    split
    · exact .inl ⟨_, by simp, rfl⟩
    · rename_i r hr
      have hbusy : ∀ {b : Bool}, s.busy = b → b = false → s.pending = none := by
        intro b hb h
        subst h
        simpa [State.busy] using hb
      cases r
      case ctrl =>
        refine .inr (.inl ⟨hs, ?_, rfl⟩)
        have := region_ctrl hr
        apply BitVec.eq_of_toNat_eq
        show off.toNat = 16
        omega
      case status =>
        refine .inr (.inr (.inl ⟨hs, ?_, rfl⟩))
        have := region_status hr
        apply BitVec.eq_of_toNat_eq
        show off.toNat = 24
        omega
      case cmd =>
        refine .inr (.inr (.inr (.inl ⟨hs, ?_, rfl⟩)))
        have := region_cmd hr
        apply BitVec.eq_of_toNat_eq
        show off.toNat = 40
        omega
      case inp =>
        simp only [State.writeRegion]
        unfold State.writeOperand
        split
        · exact .inl ⟨_, by simp, rfl⟩
        · rename_i hb
          exact .inr (.inr (.inr (.inr ⟨hs, ha, hbusy rfl (by simpa using hb), .inl hr, rfl⟩)))
      case salt =>
        simp only [State.writeRegion]
        unfold State.writeOperand
        split
        · exact .inl ⟨_, by simp, rfl⟩
        · rename_i hb
          exact .inr (.inr (.inr (.inr
            ⟨hs, ha, hbusy rfl (by simpa using hb), .inr (.inl hr), rfl⟩)))
      case mat =>
        simp only [State.writeRegion]
        unfold State.writeMatrix
        split
        · exact .inl ⟨_, by simp, rfl⟩
        · rename_i hb
          split
          · exact .inl ⟨_, by simp, rfl⟩
          · rename_i hl
            exact .inr (.inr (.inr (.inr
              ⟨hs, ha, hbusy rfl (by simpa using hb), .inr (.inr ⟨hr, by simpa using hl⟩),
                rfl⟩)))
      all_goals exact .inl ⟨_, by simp, rfl⟩
  · exact .inl ⟨_, by simp, rfl⟩

/-- A write to STATUS, field by field (20_memory.md R68). -/
theorem State.writeStatus_eq (s : State) (v : Word) :
    s.writeStatus v = { s with
      done := s.done && !v.getLsbD 1
      err := s.err && !v.getLsbD 2
      errMulti := s.errMulti && !v.getLsbD 2
      errCode := if v.getLsbD 2 then .none else s.errCode
      errInfo := if v.getLsbD 2 then 0 else s.errInfo } := by
  unfold State.writeStatus State.clearError
  cases h1 : v.getLsbD 1 <;> cases h2 : v.getLsbD 2 <;> simp

/-- A write to CTRL is a soft reset or sets the two enables (10_state.md R23). -/
theorem State.writeCtrl_cases (s : State) (v : Word) :
    (v.getLsbD 8 = true ∧ s.writeCtrl v = s.softReset) ∨
    (v.getLsbD 8 = false
      ∧ s.writeCtrl v = { s with ieDone := v.getLsbD 0, ieErr := v.getLsbD 1 }) := by
  unfold State.writeCtrl
  cases h : v.getLsbD 8 <;> simp

end Sys2Proof.Machine
end

