-- ==== Sys2Proof/Laws/Compress.lean ====
section
/-! SUPPORT. The laws of the compression function (40_compressor.md R112 to R118): sums, the shape
of the result, and what it depends on. -/

namespace Sys2Proof.Machine

/-! ### Sums modulo 2^64 (00_scope.md R8) -/

theorem sigma64_congr {n : Nat} {f g : Nat → Word} (h : ∀ i < n, f i = g i) :
    sigma64 n f = sigma64 n g := by
  induction n with
  | zero => rfl
  | succ n ih =>
    simp only [sigma64]
    rw [ih fun i hi => h i (by omega), h n (by omega)]

theorem sigma64_zero (n : Nat) : sigma64 n (fun _ => 0) = 0 := by
  induction n with
  | zero => rfl
  | succ n ih => rw [sigma64, ih]; rfl

theorem sigma64_add (n : Nat) (f g : Nat → Word) :
    sigma64 n (fun i => f i + g i) = sigma64 n f + sigma64 n g := by
  induction n with
  | zero => simp [sigma64]
  | succ n ih =>
    simp only [sigma64, ih]
    ac_rfl

/-- A sum over `b` groups of `a` terms each is the sum of all the terms. -/
theorem sigma64_mul (a b : Nat) (f : Nat → Word) :
    sigma64 (a * b) f = sigma64 b fun j => sigma64 a fun i => f (a * j + i) := by
  have hadd : ∀ n k, sigma64 (n + k) f = sigma64 n f + sigma64 k fun i => f (n + i) := by
    intro n k
    induction k with
    | zero => simp [sigma64]
    | succ k ih =>
      rw [← Nat.add_assoc]
      simp only [sigma64, ih]
      ac_rfl
  induction b with
  | zero => rfl
  | succ b ih =>
    rw [Nat.mul_succ, hadd, ih]
    rfl

/-- A sum modulo 2^64 is the sum of the natural numbers, modulo 2^64. -/
theorem sigma64_toNat (n : Nat) (f : Nat → Word) :
    (sigma64 n f).toNat = (∑ i ∈ Finset.range n, (f i).toNat) % 2 ^ 64 := by
  induction n with
  | zero => rfl
  | succ n ih =>
    rw [Finset.sum_range_succ, sigma64, BitVec.toNat_add, ih, Nat.mod_add_mod]

/-! ### The result's shape (40_compressor.md R114) -/

@[simp] theorem packWords_length (n : Nat) (f : Nat → Word) : (packWords n f).length = 8 * n := by
  induction n with
  | zero => rfl
  | succ n ih =>
    have hsucc : packWords (n + 1) f = packWords n f ++ le64 (f n) := by
      simp [packWords, List.range_succ]
    rw [hsucc, List.length_append, ih, le64_length]
    omega

theorem packWords_getD (n : Nat) (f : Nat → Word) (x : Nat) (h : x < 8 * n) :
    (packWords n f).getD x 0 = byteOf (f (x / 8)) (x % 8) := by
  induction n with
  | zero => omega
  | succ n ih =>
    have hsucc : packWords (n + 1) f = packWords n f ++ le64 (f n) := by
      simp [packWords, List.range_succ]
    rw [hsucc]
    by_cases hx : x < 8 * n
    · rw [List.getD_append _ _ _ _ (by simpa using hx), ih hx]
    · rw [List.getD_append_right _ _ _ _ (by simpa using hx), packWords_length, le64_getD,
        if_pos (by omega)]
      have h1 : x / 8 = n := by omega
      have h2 : x - 8 * n = x % 8 := by omega
      rw [h1, h2]

@[simp] theorem State.compress_length (s : State) (x : List Byte) :
    (s.compress x).length = 8 * s.params.n := packWords_length _ _

/-- A packed result, stored, reads back word by word (40_compressor.md R114). -/
theorem State.loadWord_packWords (s : State) (a n k : Nat) (f : Nat → Word) (h : k < n) :
    (s.storeBytes a (packWords n f)).loadWord (a + 8 * k) = f k := by
  rw [State.loadWord]
  conv_rhs => rw [← wordOf_byteOf (f k)]
  refine wordOf_congr fun t ht => ?_
  rw [State.readByte_storeBytes, packWords_length, if_pos (by omega), packWords_getD _ _ _ (by omega)]
  have h1 : (a + 8 * k + t - a) / 8 = k := by omega
  have h2 : (a + 8 * k + t - a) % 8 = t := by omega
  rw [h1, h2]

/-! ### What it depends on -/

theorem State.matEntry_congr {s t : State} (hp : t.params = s.params)
    (h : ∀ a, matBase ≤ a → t.readByte a = s.readByte a) (k i : Nat) :
    t.matEntry k i = s.matEntry k i := by
  unfold State.matEntry State.matWord
  rw [hp]
  exact State.loadWord_congr fun j _ => h _ (by omega)

theorem State.matEntry_eq_of_mem {s t : State} (hp : t.params = s.params) (hm : t.mem = s.mem)
    (hr : t.hardResets = s.hardResets) (k i : Nat) : t.matEntry k i = s.matEntry k i :=
  State.matEntry_congr hp (fun a _ => State.readByte_congr hm hr a) k i

theorem State.matSum_congr {s t : State} (hp : t.params = s.params) {k : Nat}
    (h : ∀ i < s.params.m, t.matEntry k i = s.matEntry k i) (x : List Byte) :
    t.matSum x k = s.matSum x k := by
  unfold State.matSum
  rw [hp]
  exact sigma64_congr fun i hi => by rw [h i hi]

theorem State.lutSum_congr {s t : State} (hp : t.params = s.params) (hl : t.lut = s.lut)
    (x : List Byte) (k : Nat) : t.lutSum x k = s.lutSum x k := by
  unfold State.lutSum State.lutEntry
  rw [hp, hl]

/-- The compression function reads the parameters, the matrix and the lookup table, and nothing
else. -/
theorem State.compress_congr {s t : State} (hp : t.params = s.params) (hl : t.lut = s.lut)
    (h : ∀ k < s.params.n, ∀ i < s.params.m, t.matEntry k i = s.matEntry k i) (x : List Byte) :
    t.compress x = s.compress x := by
  unfold State.compress packWords
  rw [hp]
  refine List.flatMap_congr fun k hk => ?_
  unfold State.compressWord
  rw [hp, State.lutSum_congr hp hl, State.matSum_congr hp (h k (List.mem_range.mp hk))]

theorem State.nibbleSum_congr {s t : State} (h : ∀ k i, t.matEntry k i = s.matEntry k i)
    (k c v : Nat) : t.nibbleSum k c v = s.nibbleSum k c v := by
  unfold State.nibbleSum
  exact sigma64_congr fun b _ => by rw [h]

/-- The lookup table COMMIT would build depends on the parameters and the matrix alone. -/
theorem State.buildLut_congr {s t : State} (hp : t.params = s.params)
    (h : ∀ k i, t.matEntry k i = s.matEntry k i) : t.buildLut = s.buildLut := by
  unfold State.buildLut
  rw [hp]
  exact List.map_congr_left fun x _ => State.nibbleSum_congr h _ _ _

end Sys2Proof.Machine
end

