-- ==== Sys2Proof/Laws/Hash.lean ====
section
/-! SUPPORT. The laws of the iterated hash (41_hash_pipeline.md): what one pushed byte can do, the
lengths of `H` and `buf`, and what the pipeline depends on. -/

namespace Sys2Proof.Machine

@[simp] theorem State.absorb_length (s : State) (h blk : List Byte) :
    (s.absorb h blk).length = 8 * s.params.n := State.compress_length _ _

/-- What pushing a byte can do: the block fills up and is absorbed, or the buffer grows. -/
theorem State.pushByte_cases (s : State) (hb : List Byte × List Byte) (v : Byte) :
    (hb.2.length + 1 = s.params.blockSize
      ∧ s.pushByte hb v = (s.absorb hb.1 (hb.2 ++ [v]), [])) ∨
    (hb.2.length + 1 ≠ s.params.blockSize ∧ s.pushByte hb v = (hb.1, hb.2 ++ [v])) := by
  unfold State.pushByte
  by_cases h : (hb.2 ++ [v]).length = s.params.blockSize
  · exact .inl ⟨by simpa using h, if_pos h⟩
  · exact .inr ⟨by simpa using h, if_neg h⟩

theorem State.pushBytes_nil (s : State) (hb : List Byte × List Byte) : s.pushBytes hb [] = hb := rfl

theorem State.pushBytes_cons (s : State) (hb : List Byte × List Byte) (v : Byte) (vs : List Byte) :
    s.pushBytes hb (v :: vs) = s.pushBytes (s.pushByte hb v) vs := rfl

theorem State.pushBytes_append (s : State) (hb : List Byte × List Byte) (vs ws : List Byte) :
    s.pushBytes hb (vs ++ ws) = s.pushBytes (s.pushBytes hb vs) ws := by
  simp [State.pushBytes]

/-- The buffer stays shorter than a block, and `H` keeps its length (41_hash_pipeline.md R140). -/
theorem State.pushBytes_lengths (s : State) (hb : List Byte × List Byte) (vs : List Byte)
    (h1 : hb.1.length = 8 * s.params.n) (h2 : hb.2.length < s.params.blockSize) :
    (s.pushBytes hb vs).1.length = 8 * s.params.n
      ∧ (s.pushBytes hb vs).2.length < s.params.blockSize := by
  induction vs generalizing hb with
  | nil => exact ⟨h1, h2⟩
  | cons v vs ih =>
    rw [State.pushBytes_cons]
    have := params_blockSize_low s.params
    rcases s.pushByte_cases hb v with ⟨hl, he⟩ | ⟨hl, he⟩ <;> rw [he]
    · exact ih _ (by simp) (by simp; omega)
    · exact ih _ h1 (by simp; omega)

theorem State.absorbBlocks_length (s : State) (h p : List Byte) (q : Nat)
    (hl : h.length = 8 * s.params.n) : (s.absorbBlocks h p q).length = 8 * s.params.n := by
  cases q with
  | zero => exact hl
  | succ q => exact State.absorb_length _ _ _

/-! ### Padding (41_hash_pipeline.md R148) -/

theorem zeros_succ (n : Nat) : zeros (n + 1) = 0 :: zeros n := rfl

@[simp] theorem zeros_length (n : Nat) : (zeros n).length = n := List.length_replicate

@[simp] theorem lengthField_length (cnt : Word) : (lengthField cnt).length = 16 := by
  simp [lengthField]

/-- The padding loop stops at the first length that leaves 16 bytes of a block. -/
theorem padZeros_eq {b : Nat} (z fuel : Nat) (p : List Byte) (hz : z ≤ fuel)
    (hstop : (p.length + z) % b = b - 16) (hgo : ∀ y < z, (p.length + y) % b ≠ b - 16) :
    padZeros b fuel p = p ++ zeros z := by
  induction z generalizing fuel p with
  | zero =>
    cases fuel with
    | zero => simp [padZeros, zeros]
    | succ fuel =>
      rw [padZeros, if_pos (by simpa using hstop)]
      simp [zeros]
  | succ z ih =>
    cases fuel with
    | zero => omega
    | succ fuel =>
      have h0 : ¬ p.length % b = b - 16 := by simpa using hgo 0 (by omega)
      rw [padZeros, if_neg h0, ih fuel (p ++ [0]) (by omega)]
      · rw [zeros_succ, List.append_assoc, List.singleton_append]
      · rw [List.length_append, List.length_singleton, ← hstop]
        congr 1
        omega
      · intro y hy
        have := hgo (y + 1) (by omega)
        rw [List.length_append, List.length_singleton]
        rwa [show p.length + 1 + y = p.length + (y + 1) by omega]

/-- The number of zero bytes the padding loop adds to a string whose length is `r` modulo `b`. -/
def padCount (b r : Nat) : Nat := if r ≤ b - 16 then b - 16 - r else 2 * b - 16 - r

theorem padZeros_eq_padCount {b : Nat} (hb : 16 ≤ b) (p : List Byte) :
    padZeros b b p = p ++ zeros (padCount b (p.length % b)) := by
  have hr : p.length % b < b := Nat.mod_lt _ (by omega)
  have hmod : ∀ y, (p.length + y) % b = (p.length % b + y) % b := fun y => (Nat.mod_add_mod _ _ _).symm
  have hlow : ∀ x, x < b → x % b = x := fun x h => Nat.mod_eq_of_lt h
  have hhigh : ∀ x, b ≤ x → x < 2 * b → x % b = x - b := fun x h1 h2 => by
    rw [Nat.mod_eq_sub_mod h1, Nat.mod_eq_of_lt (by omega)]
  generalize p.length % b = r at hr hmod ⊢
  unfold padCount
  split
  · rename_i h
    refine padZeros_eq _ _ _ (by omega) ?_ fun y hy => ?_
    · rw [hmod, hlow _ (by omega)]; omega
    · rw [hmod, hlow _ (by omega)]; omega
  · rename_i h
    refine padZeros_eq _ _ _ (by omega) ?_ fun y hy => ?_
    · rw [hmod, hhigh _ (by omega) (by omega)]; omega
    · rw [hmod]
      by_cases hy' : r + y < b
      · rw [hlow _ hy']; omega
      · rw [hhigh _ (by omega) (by omega)]; omega

/-- A padded string is a positive number of whole blocks (41_hash_pipeline.md R148). -/
theorem pad_blocks {b : Nat} (hb : 16 ≤ b) (b0 : List Byte) (cnt : Word) :
    (pad b b0 cnt).length % b = 0 ∧ 0 < (pad b b0 cnt).length / b := by
  have hlen : (pad b b0 cnt).length
      = (b0.length + 1) + padCount b ((b0.length + 1) % b) + 16 := by
    rw [pad, padZeros_eq_padCount hb]
    simp only [List.length_append, List.length_singleton, zeros_length, lengthField_length]
  have hr : (b0.length + 1) % b < b := Nat.mod_lt _ (by omega)
  have hdiv := Nat.div_add_mod (b0.length + 1) b
  have hzero : (pad b b0 cnt).length % b = 0 := by
    rw [hlen]
    apply Nat.mod_eq_zero_of_dvd
    generalize (b0.length + 1) % b = r at *
    generalize (b0.length + 1) / b = q at *
    unfold padCount
    split
    · exact ⟨q + 1, by rw [Nat.mul_add]; omega⟩
    · exact ⟨q + 2, by rw [Nat.mul_add]; omega⟩
  refine ⟨hzero, Nat.div_pos (Nat.le_of_dvd (by omega) (Nat.dvd_of_mod_eq_zero hzero)) (by omega)⟩

/-- A digest is `8N` bytes long (41_hash_pipeline.md R150). -/
@[simp] theorem State.final_length (s : State) (h b0 : List Byte) (cnt : Word) :
    (s.final h b0 cnt).length = 8 * s.params.n := by
  have hpos := (pad_blocks (params_blockSize_low s.params) b0 cnt).2
  unfold State.final
  obtain ⟨q, hq⟩ := Nat.exists_eq_succ_of_ne_zero (Nat.pos_iff_ne_zero.mp hpos)
  rw [hq]
  exact State.absorb_length _ _ _

/-- HWRITE's bytes: the first `len` of `IN` (30_encoding.md R92). -/
theorem State.hwriteBytes_length {s : State} {len : BitVec 16} (h : len.toNat ≤ s.params.inputLen) :
    (s.hwriteBytes len).length = len.toNat := by
  simp [State.hwriteBytes, State.inBytes, h]

/-! ### What it depends on -/

/-- Absorption reads the salt, the parameters, the matrix and the lookup table. -/
theorem State.absorb_congr {s t : State} (hp : t.params = s.params) (hl : t.lut = s.lut)
    (hs : t.saltBytes = s.saltBytes)
    (hm : ∀ k < s.params.n, ∀ i < s.params.m, t.matEntry k i = s.matEntry k i)
    (h blk : List Byte) : t.absorb h blk = s.absorb h blk := by
  unfold State.absorb State.saltXor
  rw [hs, State.compress_congr hp hl hm]

theorem State.absorbBlocks_congr {s t : State} (hp : t.params = s.params)
    (ha : ∀ h blk, t.absorb h blk = s.absorb h blk) (h p : List Byte) (q : Nat) :
    t.absorbBlocks h p q = s.absorbBlocks h p q := by
  induction q with
  | zero => rfl
  | succ q ih => rw [State.absorbBlocks, State.absorbBlocks, ih, ha, hp]

theorem State.pushBytes_congr {s t : State} (hp : t.params = s.params)
    (ha : ∀ h blk, t.absorb h blk = s.absorb h blk) (hb : List Byte × List Byte)
    (vs : List Byte) : t.pushBytes hb vs = s.pushBytes hb vs := by
  have : t.pushByte = s.pushByte := by
    funext hb v
    unfold State.pushByte
    rw [hp, ha]
  unfold State.pushBytes
  rw [this]

theorem State.final_congr {s t : State} (hp : t.params = s.params)
    (ha : ∀ h blk, t.absorb h blk = s.absorb h blk) (h b0 : List Byte) (cnt : Word) :
    t.final h b0 cnt = s.final h b0 cnt := by
  unfold State.final
  rw [hp, State.absorbBlocks_congr hp ha]

end Sys2Proof.Machine
end

