-- ==== Sys2Proof/Laws/PerInstr.lean ====
section
/-! SUPPORT. Facts about every command as syntax, one lemma per constructor. -/

namespace Sys2Proof.Laws

/-- The encoded word holds the opcode in `OP`, the length in `LEN`, and zeros in `RSV0` and `RSV1`
(30_encoding.md R90). -/
def EncodedFields.Statement (i : Instr) : Prop :=
  opField (encodeWord i) = opcodeOf i ∧ lenField (encodeWord i) = lenOf i
    ∧ rsv0Field (encodeWord i) = 0 ∧ rsv1Field (encodeWord i) = 0

theorem EncodedFields.nop : EncodedFields.Statement .nop := by
  unfold EncodedFields.Statement; decide

theorem EncodedFields.commit : EncodedFields.Statement .commit := by
  unfold EncodedFields.Statement; decide

theorem EncodedFields.compress : EncodedFields.Statement .compress := by
  unfold EncodedFields.Statement; decide

theorem EncodedFields.hreset : EncodedFields.Statement .hreset := by
  unfold EncodedFields.Statement; decide

theorem EncodedFields.hwrite (len : BitVec 16) : EncodedFields.Statement (.hwrite len) := by
  refine ⟨?_, ?_, ?_, ?_⟩ <;>
  · apply BitVec.eq_of_getLsbD_eq
    intro i hi
    simp only [opField, lenField, rsv0Field, rsv1Field, encodeWord, opcodeOf, lenOf,
      BitVec.getLsbD_extractLsb', BitVec.getLsbD_append]
    interval_cases i <;> simp

theorem EncodedFields.hsum : EncodedFields.Statement .hsum := by
  unfold EncodedFields.Statement; decide

end Sys2Proof.Laws
end

