-- ==== Sys2Proof/Laws/Step.lean ====
section
/-! SUPPORT. What one step can do, said once: an access, a hard reset, nothing, or the completion
of the pending command. -/

namespace Sys2Proof.Machine

/-- The completion of every command: what it can write, and that nothing else changes. -/
theorem exec_cases (i : Instr) (s : State) : ∃ t, exec i s = .next t ∧
    t = { s with
      mem := t.mem, lut := t.lut, locked := t.locked, chain := t.chain, buf := t.buf,
      count := t.count, pending := none, done := true } ∧
    (t.mem = s.mem ∨ ∃ vs : List Byte, vs.length = s.params.outputLen
      ∧ t.mem = Memory.storeBytes s.mem outBase vs) := by
  cases i with
  | nop => exact ⟨_, rfl, rfl, .inl rfl⟩
  | commit => exact ⟨_, rfl, rfl, .inl rfl⟩
  | compress => exact ⟨_, rfl, rfl, .inr ⟨_, State.compress_length _ _, rfl⟩⟩
  | hreset => exact ⟨_, rfl, rfl, .inl rfl⟩
  | hwrite len => exact ⟨_, rfl, rfl, .inl rfl⟩
  | hsum => exact ⟨_, rfl, rfl, .inr ⟨_, State.final_length _ _ _ _, rfl⟩⟩

/-- No command reads or writes outside OUT but through its own registers. -/
theorem exec_readByte {i : Instr} {s t : State} (h : exec i s = .next t) {a : Nat}
    (ha : a < outBase ∨ outBase + s.params.outputLen ≤ a) : t.readByte a = s.readByte a := by
  obtain ⟨t', ht', hframe, hmem⟩ := exec_cases i s
  rw [h] at ht'
  cases ht'
  have hr : t.hardResets = s.hardResets := by rw [hframe]
  rcases hmem with hm | ⟨vs, hl, hm⟩
  · exact State.readByte_congr hm hr a
  · refine (State.readByte_congr (s := s.storeBytes outBase vs) hm hr a).trans ?_
    exact State.readByte_storeBytes_of_outside _ _ _ _ (by omega)

/-- What the engine's move can do. -/
theorem State.fetch_cases (s : State) :
    (s.pending = none ∧ s.fetch = .advance s) ∨
    (∃ c i, s.pending = some c ∧ decodeWord c = .ok i ∧ s.fetch = .run i s) ∨
    (∃ c e, s.pending = some c ∧ decodeWord c = .error e
      ∧ s.fetch = .refuse (.pendingNotACommand e)) := by
  unfold State.fetch
  cases hp : s.pending with
  | none => exact .inl ⟨rfl, rfl⟩
  | some c =>
    cases hd : decodeWord c with
    | ok i => exact .inr (.inl ⟨c, i, rfl, hd, by simp [hd]⟩)
    | error e => exact .inr (.inr ⟨c, e, rfl, hd, by simp [hd]⟩)

/-- One step that has a next state: `u` is the state with the event taken off the list. -/
theorem step_cases {s t : State} (h : step s = .next t) :
    ∃ u : State, u = { s with events := u.events } ∧
    (t = u ∨
     (∃ off size, t = u.hostRead off size) ∨
     (∃ addr size off v es, s.events = .write addr size v :: es ∧ s.params.offsetOf addr = some off
        ∧ t = u.hostWrite off size v) ∨
     (∃ es, s.events = .hardReset :: es ∧ t = u.hardReset) ∨
     (∃ c i, u.pending = some c ∧ decodeWord c = .ok i ∧ exec i u = .next t)) := by
  have hfetch : ∀ u : State, u = { s with events := u.events } →
      (match u.fetch with
        | .advance s' => Host.Outcome.next s'
        | .run i s' => exec i s'
        | .refuse r => .refused r) = Host.Outcome.next t →
      t = u ∨ (∃ c i, u.pending = some c ∧ decodeWord c = .ok i ∧ exec i u = .next t) := by
    intro u _ hu
    rcases u.fetch_cases with ⟨_, hf⟩ | ⟨c, i, hp, hd, hf⟩ | ⟨c, e, _, _, hf⟩
    · rw [hf] at hu; cases hu; exact .inl rfl
    · rw [hf] at hu; exact .inr ⟨c, i, hp, hd, hu⟩
    · rw [hf] at hu; cases hu
  unfold step State.nextMove at h
  cases he : s.events with
  | nil =>
    rw [he] at h
    refine ⟨s, rfl, ?_⟩
    rcases hfetch s rfl h with ht | ht
    · exact .inl ht
    · exact .inr (.inr (.inr (.inr ht)))
  | cons e es =>
    rw [he] at h
    refine ⟨{ s with events := es }, rfl, ?_⟩
    cases e with
    | read addr size =>
      simp only [State.react, State.busRead] at h
      cases ho : s.params.offsetOf addr with
      | none => simp only [ho] at h; cases h; exact .inl rfl
      | some off => simp only [ho] at h; cases h; exact .inr (.inl ⟨off, size, rfl⟩)
    | write addr size v =>
      simp only [State.react, State.busWrite] at h
      cases ho : s.params.offsetOf addr with
      | none => simp only [ho] at h; cases h; exact .inl rfl
      | some off =>
        simp only [ho] at h
        cases h
        exact .inr (.inr (.inl ⟨addr, size, off, v, es, rfl, ho, rfl⟩))
    | hardReset =>
      simp only [State.react] at h
      cases h
      exact .inr (.inr (.inr (.inl ⟨es, rfl, rfl⟩)))
    | complete =>
      rcases hfetch { s with events := es } rfl h with ht | ht
      · exact .inl ht
      · exact .inr (.inr (.inr (.inr ht)))

end Sys2Proof.Machine
end

