-- ==== Sys2Proof/Tests/Slice0.lean ====
section
/-! SUPPORT. Tests on fixed values, each expected result from the spec (95_test_vectors.md, or by
hand from the rule named), and for every statement with hypotheses one theorem `test_witness_…` that
meets them on a concrete state. -/

namespace Sys2Proof.Tests

open Sys2Proof.Machine

/-! ### Small states: instance T1 of 95_test_vectors.md section 2.1, N = 1, M = 192, B = 16 -/

/-- Instance T1 with either datapath, at a base that is not 0. -/
def tiny (l : Bool) : Params :=
  ⟨1, 192, l, 0x40000000, by decide, by decide, by decide, by decide⟩

/-- T1 right after reset. -/
def idle (l : Bool) : State := State.resetFor (tiny l)

/-- T1 locked, with the given MAT words and the first bytes of IN. -/
def loaded (ws : List (Nat × Word)) (input : List Byte) : State :=
  { (ws.foldl (fun s e => s.storeWord (matBase + 8 * e.1) e.2) (idle false)).storeBytes inBase input
    with locked := true }

/-- T1 locked, with the command of opcode 2 pending. -/
def working : State := { idle false with locked := true, pending := some 0x02 }

/-- The next state of a step or of a command, if there is one. -/
def nextOf : Host.Outcome State Fault Refusal → Option State
  | .next t => some t
  | _ => none

/-! ### Well-formedness (30_encoding.md R92) -/

theorem test_hwrite_of_the_whole_input_is_well_formed :
    Instr.wellFormed (tiny false) (.hwrite 24) = true := by decide

theorem test_hwrite_past_the_input_is_refused :
    Instr.wellFormed (tiny false) (.hwrite 25) = false
      ∧ Instr.wellFormed Params.reference (.hwrite 161) = false := by decide

/-! ### Decoding: words written out from R90 as `RSV1 ++ LEN ++ RSV0 ++ OP` -/

theorem test_decode_nop :
    decodeTableWord 64 0b0000000000000000000000000000000000000000000000000000000000000000
      = some .nop := by decide

theorem test_decode_commit :
    decodeTableWord 64 0b0000000000000000000000000000000000000000000000000000000000000001
      = some .commit := by decide

theorem test_decode_compress :
    decodeTableWord 64 0b0000000000000000000000000000000000000000000000000000000000000010
      = some .compress := by decide

theorem test_decode_hreset :
    decodeTableWord 64 0b0000000000000000000000000000000000000000000000000000000000000011
      = some .hreset := by decide

/-- `CMD HWRITE, 10` of program P2: 0x0000_0000_000A_0004. -/
theorem test_decode_hwrite :
    decodeTableWord 64 0b0000000000000000000000000000000000000000000010100000000000000100
      = some (.hwrite 10) := by decide

theorem test_decode_hsum :
    decodeTableWord 64 0b0000000000000000000000000000000000000000000000000000000000000101
      = some .hsum := by decide

/-- The bytes of HWRITE 0x1234 in the order of rule R61. -/
theorem test_encode_hwrite_bytes :
    encode (.hwrite 0x1234) = [0x04, 0x00, 0x34, 0x12, 0x00, 0x00, 0x00, 0x00]
      ∧ decode [0x04, 0x00, 0x34, 0x12, 0x00, 0x00, 0x00, 0x00] = .ok (.hwrite 0x1234) := by decide

/-- Vectors A-8 to A-13 and A-18, and a string of the wrong length (R95). -/
theorem test_decode_refuses_reserved_words :
    decodeWord 0x06 = .error .illegalOpcode ∧ decodeWord 0xFF = .error .illegalOpcode
      ∧ decodeWord 0x106 = .error .illegalOpcode ∧ decodeWord 0x100 = .error .reservedField
      ∧ decodeWord 0x0000000100000000 = .error .reservedField
      ∧ decodeWord 0x10002 = .error .reservedField
      ∧ decodeWord 0x0000000100190004 = .error .reservedField
      ∧ decode [0x00] = .error .wrongLength := by decide

/-! ### The commands -/

theorem test_nop_completes :
    (nextOf (exec .nop { idle false with pending := some 0x00 })).map State.statusWord
      = some 0x02 := by decide

/-- Vector A-2: LOCKED and DONE after COMMIT. -/
theorem test_commit_locks :
    (nextOf (exec .commit (idle false))).map State.statusWord = some 0x12 := by decide

/-- Vector LUT-1. -/
theorem test_commit_builds_the_first_slot :
    ((List.range 16).map fun v =>
        ({ idle true with mem := (loaded [(0, 1), (1, 2), (2, 3), (3, 4)] []).mem } : State).nibbleSum
          0 0 v)
      = [0, 1, 2, 3, 3, 4, 5, 6, 4, 5, 6, 7, 7, 8, 9, 0xA] := by decide +kernel

/-- Vector C-MB-5: byte 2 is 0xA5, bits 16, 18, 21 and 23; and vector C-L-1: lane 1 starts at
`MAT[256]`. -/
theorem test_compress_selects_by_bit :
    (nextOf (exec .compress (loaded
        [(16, 17), (17, 18), (18, 19), (19, 20), (20, 21), (21, 22), (22, 23), (23, 24)]
        [0x00, 0x00, 0xA5]))).map (fun t => t.loadWord 0x1000) = some 0x52
    ∧ (nextOf (exec .compress ((((State.resetFor ⟨2, 256, false, 0, by decide, by decide, by decide,
        by decide⟩).storeWord matBase 1).storeWord (matBase + 8 * 256) 257).storeBytes inBase
        [0x01]))).map (fun t => (t.loadWord 0x1000, t.loadWord 0x1008)) = some (0x1, 0x101) := by
  decide +kernel

/-- Vectors C-MD-3 and C-MC-3: sums wrap modulo 2^64, and are no XOR. -/
theorem test_compress_wraps :
    (nextOf (exec .compress (loaded [(63, 1 <<< 63), (127, 1 <<< 63)]
        [0, 0, 0, 0, 0, 0, 0, 0x80, 0, 0, 0, 0, 0, 0, 0, 0x80]))).map (fun t => t.loadWord 0x1000)
      = some 0
    ∧ (nextOf (exec .compress (loaded [(0, BitVec.allOnes 64), (1, BitVec.allOnes 64)]
        [0x03]))).map (fun t => t.loadWord 0x1000) = some 0xFFFFFFFFFFFFFFFE := by decide +kernel

theorem test_hreset_clears :
    (nextOf (exec .hreset
        { idle false with chain := [1, 2, 3, 4, 5, 6, 7, 8], buf := [9], count := 17 })).map
      (fun t => (t.chain, t.buf, t.count)) = some ([0, 0, 0, 0, 0, 0, 0, 0], [], 0) := by decide

/-- By hand from R145 and R142: the block is 01 and zeros, so `H` becomes `LE64(MAT[0])`; byte 16
stays in `buf`. -/
theorem test_hwrite_absorbs_one_block :
    (nextOf (exec (.hwrite 17) (loaded [(0, 0x1234)]
        [0x01, 0, 0, 0, 0, 0, 0, 0, 0, 0, 0, 0, 0, 0, 0, 0, 0x10]))).map
      (fun t => (t.chain, t.buf, t.count))
      = some ([0x34, 0x12, 0, 0, 0, 0, 0, 0], [0x10], 17) := by decide +kernel

/-- Vector H-C on T1: 40 bytes in blocks of 16 leave 8 of them. -/
theorem test_hwrite_counts :
    (nextOf (exec (.hwrite 24) { idle false with count := 16 })).map
      (fun t => (t.count, t.buf.length)) = some (40, 8) := by decide +kernel

/-- By hand from R148 to R151: the first block is 01 and zeros and selects `MAT[0] = 1`; the second
is zeros, and `H = 01 00…` selects `MAT[128]`. -/
theorem test_hsum_of_the_empty_message :
    (nextOf (exec .hsum (loaded [(0, 1), (128, 0x5678)] []))).map (fun t => t.loadWord 0x1000)
      = some 0x5678 := by decide +kernel

/-- By hand from R143: salt byte 01 cancels the pad byte of the first block, and selects `MAT[0]` in
the second. -/
theorem test_hsum_xors_the_salt_into_every_block :
    (nextOf (exec .hsum ((loaded [(0, 7), (128, 0x5678)] []).storeBytes 0x3000 [0x01]))).map
      (fun t => (t.loadWord 0x1000, t.chain)) = some (7, [0, 0, 0, 0, 0, 0, 0, 0]) := by
  decide +kernel

/-- The padding table of 95_test_vectors.md section 2.5, by the number of bytes. -/
theorem test_padding_lengths :
    ([(16, 0), (16, 1), (16, 15), (80, 0), (80, 1), (80, 63), (80, 64), (80, 79)].map
        fun e : Nat × Nat => (pad e.1 (zeros e.2) 0).length)
      = [32, 32, 32, 80, 80, 80, 160, 160] := by decide +kernel

/-- The length fields of section 2.5: counts 17, 2^61 and 2^61 + 1. -/
theorem test_length_fields :
    (lengthField 17).take 8 = [0x88, 0, 0, 0, 0, 0, 0, 0]
      ∧ lengthField 0x2000000000000000 = zeros 16
      ∧ (lengthField 0x2000000000000001).take 8 = [8, 0, 0, 0, 0, 0, 0, 0] := by decide

/-! ### The host's accesses -/

/-- Vectors A-3 to A-22: ERRCODE after the write of CMD. -/
theorem test_acceptance_codes :
    ([0x02, 0x10004, 0x190004, 0x05, 0x06, 0xFF, 0x106, 0x100, 0x100000000].map fun c : Word =>
        ((idle false).hostWrite 0x028 8 c).errcodeWord)
      = [0x0000000200000004, 0x0001000400000004, 0x0019000400000004, 0x0000000500000004,
         0x0000000600000001, 0x000000FF00000001, 0x0000010600000001, 0x0000010000000002,
         0x0000000000000002]
    ∧ ([0x10002, 0x01, 0x180004, 0x190004, 0xFFFF0004, 0x100190004, 0x04].map fun c : Word =>
        ((loaded [] []).hostWrite 0x028 8 c).errcodeWord)
      = [0x0001000200000002, 0x0000000100000005, 0, 0x0019000400000006, 0xFFFF000400000006,
         0x0019000400000002, 0]
    ∧ (working.hostWrite 0x028 8 0x06).errcodeWord = 0x0000000600000003 := by decide +kernel

/-- Vectors M-4 to M-19: response and ERRCODE. -/
theorem test_access_errors :
    ([0x004, 0x040, 0x1008, 0x2018, 0x3010, 0x8000600, 0x4000].map fun o : Offset =>
        (((idle false).hostRead o 8).response, ((idle false).hostRead o 8).errcodeWord))
      = [(some ⟨false, 0⟩, 0x0000000400000010), (some ⟨false, 0⟩, 0x0000004000000011),
         (some ⟨false, 0⟩, 0x0000100800000011), (some ⟨false, 0⟩, 0x0000201800000011),
         (some ⟨false, 0⟩, 0x0000301000000011), (some ⟨false, 0⟩, 0x0800060000000011),
         (some ⟨false, 0⟩, 0x0000400000000011)]
    ∧ ([0x000, 0x1000, 0x1008, 0x1001].map fun o : Offset =>
        ((idle false).hostWrite o 8 5).errcodeWord)
      = [0x12, 0x0000100000000012, 0x0000100800000011, 0x0000100100000010]
    ∧ ([0x030, 0x2000, 0x8000000].map fun o : Offset => (working.hostWrite o 8 5).errcodeWord)
      = [0x0000003000000012, 0x0000200000000003, 0x0800000000000003]
    ∧ ((loaded [] []).hostWrite 0x8000000 8 5).errcodeWord = 0x0800000000000005 := by
  decide +kernel

/-- Vectors M-1, M-2 and the values of `PARAM` in section 1.1. -/
theorem test_constants :
    ((idle true).hostRead 0x000 8).response = some ⟨true, 0x53484331⟩
      ∧ ((idle false).hostRead 0x008 8).response = some ⟨true, 0x0010000000030001⟩
      ∧ ((idle true).hostRead 0x008 8).response = some ⟨true, 0x0010000100030001⟩
      ∧ (State.reset.hostRead 0x008 8).response = some ⟨true, 0x005000000014000A⟩ := by
  decide +kernel

/-- Vector M-21: the bytes of a stored word. -/
theorem test_store_is_little_endian :
    ((idle false).hostWrite 0x3008 8 0x1122334455667788).readBytes 0x3008 8
      = [0x88, 0x77, 0x66, 0x55, 0x44, 0x33, 0x22, 0x11] := by decide +kernel

/-- Vectors M-22 and M-24. -/
theorem test_ctrl_writes :
    ((idle false).hostWrite 0x010 8 0xFF).ctrlWord = 3
      ∧ ((idle false).hostWrite 0x010 8 0x103).ctrlWord = 0 := by decide +kernel

/-- Vector M-25. -/
theorem test_status_write_one_to_clear :
    ([0x2, 0x4, 0x19, 0x6].map fun v : Word =>
        (({ idle false with
            done := true, err := true, errMulti := true, locked := true, errCode := .locked } :
          State).hostWrite 0x018 8 v).statusWord)
      = [0x1C, 0x12, 0x1E, 0x10] := by decide +kernel

/-- Vectors R-2 and R-4: a soft reset keeps MAT and drops the pending command. -/
theorem test_soft_reset :
    (({ loaded [(5, 0x20)] [0x01] with pending := some 0x02 } : State).hostWrite 0x010 8 0x100).matWord
        5 = 0x20
      ∧ (({ loaded [(5, 0x20)] [0x01] with pending := some 0x02 } : State).hostWrite 0x010 8
        0x100).statusWord = 0
      ∧ (({ loaded [(5, 0x20)] [0x01] with pending := some 0x02 } : State).hostWrite 0x010 8
        0x100).loadWord 0x2000 = 0 := by decide +kernel

/-- The table of 95_test_vectors.md section 2.8: rows (DONE, ERR, IE_DONE, IE_ERR). -/
theorem test_irq :
    ([(false, false, true, true), (true, false, true, false), (true, false, false, true),
      (false, true, false, true), (false, true, true, false), (true, true, false, false),
      (true, true, true, false)].map fun e : Bool × Bool × Bool × Bool =>
        ({ idle false with done := e.1, err := e.2.1, ieDone := e.2.2.1, ieErr := e.2.2.2 } :
          State).irq)
      = [false, true, false, true, false, false, true] := by decide

/-- Writing the value that an unlisted offset reads as takes the byte off the list (log 7). -/
theorem test_memory_stays_canonical :
    Memory.storeBytes [] 0x2000 [0x00, 0x07] = [(0x2001, 0x07)]
      ∧ Memory.storeBytes [(0x2001, 0x07)] 0x2000 [0x00, 0x00] = []
      ∧ Memory.storeBytes [] 0x8000000 [0x00] = [(0x8000000, 0x00)] := by decide

/-- `withFetchWord` on reset: the next step is the completion of the command. -/
theorem test_step_runs_the_fetched_word :
    (nextOf (step (State.reset.withFetchWord 64 0x01))).map State.statusWord = some 0x12 := by
  decide +kernel

/-- `CMD NOP` and `WAIT` of 30_encoding.md R97 as events: the command becomes pending first. -/
theorem test_first_step_of_a_command :
    (nextOf (step { idle false with
        events := cmd (tiny false) .nop :: wait (tiny false) })).map State.statusWord
      = some 0x01 := by decide +kernel

/-! ### Witnesses: for each statement with hypotheses, a state and operands that meet them, at the
boundary values of each clause -/

/-- A state locked by COMMIT, with the lookup table that COMMIT builds. -/
def committed (s : State) : State := { s with lut := s.buildLut, locked := true }

/-- T1 with the lookup table and one MAT word. -/
def tabled : State := committed { idle true with mem := (loaded [(0, 1)] []).mem }

/-- T1 with every byte of MAT written as 0xFF. -/
def saturated : State := (idle false).storeBytes matBase (List.replicate 1536 0xFF)

theorem test_fresh_without_table (s : State) (h : s.params.lutImpl = false) : s.lutFresh :=
  fun h' => by rw [h] at h'; cases h'

theorem test_fresh_committed (s : State) : (committed s).lut = (committed s).buildLut :=
  (State.buildLut_congr (s := s) rfl (State.matEntry_eq_of_mem rfl rfl rfl)).symm

theorem test_fresh_tabled : tabled.lut = tabled.buildLut := test_fresh_committed _

theorem test_idle_inv : (idle false).Inv where
  mem_canonical := rfl
  mem_mapped := fun _ h => by cases h
  mat_whole := fun _ _ _ _ => rfl
  chain_length := rfl
  buf_short := by decide
  error_quiet := fun _ => ⟨rfl, rfl, rfl⟩
  error_named := fun h => by cases h
  pending_admitted := fun _ h => by cases h
  lut_coherent := fun h => by cases h
  lut_absent := fun _ => rfl

theorem test_witness_DecodeAcceptsOnlyEncodings :
    decode [0x04, 0x00, 0xFF, 0xFF, 0x00, 0x00, 0x00, 0x00] = .ok (.hwrite 0xFFFF) := by decide

theorem test_witness_WordsAreRefusedExactlyWhenReserved :
    6 ≤ ((0x06 : Word).extractLsb' 0 8).toNat
    ∧ (((0x105 : Word).extractLsb' 0 8).toNat < 6 ∧ (0x105 : Word).extractLsb' 8 8 ≠ 0)
    ∧ (((0x100000004 : Word).extractLsb' 0 8).toNat < 6
      ∧ (0x100000004 : Word).extractLsb' 32 32 ≠ 0)
    ∧ (((0x10005 : Word).extractLsb' 0 8).toNat < 6 ∧ (0x10005 : Word).extractLsb' 0 8 ≠ 4
      ∧ (0x10005 : Word).extractLsb' 16 16 ≠ 0)
    ∧ (((0xFFFF0004 : Word).extractLsb' 0 8).toNat < 6
      ∧ ¬ ((0xFFFF0004 : Word).extractLsb' 8 8 ≠ 0 ∨ (0xFFFF0004 : Word).extractLsb' 32 32 ≠ 0
        ∨ ((0xFFFF0004 : Word).extractLsb' 0 8 ≠ 4
          ∧ (0xFFFF0004 : Word).extractLsb' 16 16 ≠ 0))) := by decide

theorem test_witness_FirstErrorIsRecordedAndLaterOnesCounted :
    (idle false).err = false ∧ ((idle false).raise .busy 3).err = true := by decide

theorem test_witness_DoneIsSetByCompletionAndSticky :
    (∃ t, exec .nop (idle false) = .next t) ∧
    ∃ s t : State, s.done = true ∧ step s = .next t ∧ t.done = false :=
  ⟨⟨_, rfl⟩, { idle false with done := true, events := [w1c (tiny false) 0x2] }, _, rfl, rfl,
    by decide +kernel⟩

theorem test_witness_ErrorRecordIsKeptUntilCleared :
    ∃ s t : State, s.err = true ∧ s.errMulti = true ∧ step s = .next t :=
  ⟨{ idle false with err := true, errMulti := true, errCode := .busy }, _, rfl, rfl, rfl⟩

theorem test_witness_NarrowOrMisalignedAccessRaisesBadAccess :
    ((4 : Nat) ≠ 8 ∨ (0x000 : Offset).toNat % 8 ≠ 0)
      ∧ ((8 : Nat) ≠ 8 ∨ (0xFFFFFFF : Offset).toNat % 8 ≠ 0) := by decide

/-- The boundary offsets of T1: each unmapped range's first and last word, then mapped ones. -/
theorem test_witness_UnmappedOffsetsRaiseBadAddress :
    (∀ o ∈ [0x40, 0xFF8, 0x1008, 0x1FF8, 0x2018, 0x2FF8, 0x3010, 0x7FFFFF8, 0x8000600, 0xFFFFFF8],
      o % 8 = 0 ∧ ((0x40 ≤ o ∧ o < 0x1000) ∨ (0x1000 + 8 * (tiny false).n ≤ o ∧ o < 0x2000)
        ∨ (0x2000 + (tiny false).m / 8 ≤ o ∧ o < 0x3000)
        ∨ (0x3000 + ((tiny false).m / 8 - 8 * (tiny false).n) ≤ o ∧ o < 0x8000000)
        ∨ 0x8000000 + 8 * ((tiny false).n * (tiny false).m) ≤ o)) ∧
    (∀ o ∈ [0x0, 0x38, 0x1000, 0x2000, 0x2010, 0x3000, 0x3008, 0x8000000, 0x80005F8],
      o % 8 = 0 ∧ ¬ ((0x40 ≤ o ∧ o < 0x1000) ∨ (0x1000 + 8 * (tiny false).n ≤ o ∧ o < 0x2000)
        ∨ (0x2000 + (tiny false).m / 8 ≤ o ∧ o < 0x3000)
        ∨ (0x3000 + ((tiny false).m / 8 - 8 * (tiny false).n) ≤ o ∧ o < 0x8000000)
        ∨ 0x8000000 + 8 * ((tiny false).n * (tiny false).m) ≤ o)) := by decide

/-- Every row of R170's table is some state's error code. -/
theorem test_witness_ControlRegistersReadTheirFields :
    ∀ e ∈ [ErrorCode.none, .illegalOpcode, .reservedField, .busy, .notLocked, .locked, .badLen,
      .badAccess, .badAddress, .readOnly],
      ∃ s : State, s.errCode = e := fun e _ => ⟨{ idle false with errCode := e }, rfl⟩

theorem test_witness_ErrcodeReadsZeroWithoutError : (idle false).Inv ∧ (idle false).err = false :=
  ⟨test_idle_inv, rfl⟩

theorem test_witness_ResultsReadTheirValuesWhileIdle :
    (idle false).pending = none ∧ (List.replicate 15 (0 : Byte)).length < (idle false).params.blockSize
      ∧ (0 : Nat) < (idle false).params.n := by decide

/-- The first and last word of each window of T1. -/
theorem test_witness_BusyReadsOfResultsAreUnspecified :
    working.pending ≠ none
    ∧ (∀ o ∈ [0x1000], o % 8 = 0 ∧ 0x1000 ≤ o ∧ o < 0x1000 + 8 * working.params.n)
    ∧ (∀ o ∈ [0x2000, 0x2010], o % 8 = 0 ∧ 0x2000 ≤ o ∧ o < 0x2000 + working.params.m / 8)
    ∧ (∀ o ∈ [0x3000, 0x3008], o % 8 = 0 ∧ 0x3000 ≤ o
      ∧ o < 0x3000 + (working.params.m / 8 - 8 * working.params.n))
    ∧ (∀ o ∈ [0x8000000, 0x80005F8], o % 8 = 0 ∧ 0x8000000 ≤ o
      ∧ o < 0x8000000 + 8 * (working.params.n * working.params.m)) := by decide

theorem test_witness_SuccessfulReadsHaveNoSideEffect :
    ((idle false).hostRead 0x1000 8).response = some ⟨true, 0⟩ ∧ (idle false).pending = none
      ∧ (working.hostRead 0x1000 8).response = some ⟨true, Config.busyRead 0⟩ :=
  ⟨by decide +kernel, rfl, rfl⟩

theorem test_witness_ReadOnlyOffsetsRefuseWrites :
    ∀ o ∈ [0x000, 0x008, 0x020, 0x030, 0x038, 0x1000], o % 8 = 0 ∧
      (o = 0x000 ∨ o = 0x008 ∨ o = 0x020 ∨ o = 0x030 ∨ o = 0x038
        ∨ (0x1000 ≤ o ∧ o < 0x1000 + 8 * (idle false).params.n)) := by decide

theorem test_witness_WindowWritesReadBack :
    (idle false).pending = none ∧ (idle false).locked = false
    ∧ ∀ o ∈ [0x2000, 0x2010, 0x3000, 0x3008, 0x8000000, 0x80005F8], o % 8 = 0 ∧
      ((0x2000 ≤ o ∧ o < 0x2000 + (idle false).params.m / 8) ∨
        (0x3000 ≤ o ∧ o < 0x3000 + ((idle false).params.m / 8 - 8 * (idle false).params.n)) ∨
        (0x8000000 ≤ o ∧ o < 0x8000000 + 8 * ((idle false).params.n * (idle false).params.m))) := by
  decide

/-- The first and the last entry of instance T1b's shape: two bundles, M = 256. -/
theorem test_witness_MatrixWindowHoldsTheEntriesBundleByBundle :
    ∃ s : State, s.params.n = 2 ∧ s.params.m = 256 ∧ s.pending = none ∧ s.locked = false
      ∧ (0 < s.params.n ∧ 0 < s.params.m) ∧ (1 < s.params.n ∧ 255 < s.params.m)
      ∧ (1, 0) ≠ (0, 255) :=
  ⟨State.resetFor ⟨2, 256, false, 0, by decide, by decide, by decide, by decide⟩, by decide⟩

theorem test_witness_BusyRefusesOperandsAndCommands :
    working.pending ≠ none ∧ (0x3 : Word).getLsbD 8 = false
    ∧ ∀ o ∈ [0x2000, 0x2010, 0x3000, 0x3008, 0x8000000, 0x80005F8], o % 8 = 0 ∧
      ((0x2000 ≤ o ∧ o < 0x2000 + working.params.m / 8) ∨
        (0x3000 ≤ o ∧ o < 0x3000 + (working.params.m / 8 - 8 * working.params.n)) ∨
        (0x8000000 ≤ o ∧ o < 0x8000000 + 8 * (working.params.n * working.params.m))) := by
  decide

theorem test_witness_LockedMatrixRefusesWrites :
    (loaded [] []).pending = none ∧ (loaded [] []).locked = true
    ∧ ∀ o ∈ [0x8000000, 0x80005F8], o % 8 = 0 ∧ 0x8000000 ≤ o
      ∧ o < 0x8000000 + 8 * ((loaded [] []).params.n * (loaded [] []).params.m) := by decide

theorem test_witness_MatrixIsFrozenUntilReset :
    working.locked = true ∧ (∃ t, step working = .next t)
      ∧ working.pending ≠ some (encodeWord .commit) :=
  ⟨rfl, ⟨_, rfl⟩, by decide⟩

theorem test_witness_CtrlWriteSetsEnablesOrResets :
    (0xFF : Word).getLsbD 8 = false ∧ (0x103 : Word).getLsbD 8 = true := by decide

theorem test_witness_SoftResetKeepsOnlyTheMatrix : (0x100 : Word).getLsbD 8 = true := by decide

theorem test_witness_HardResetClearsEverything :
    ({ working with events := [.hardReset] } : State).events = .hardReset :: [] := rfl

theorem test_witness_CommitLocksAndBuildsTheTable :
    (idle false).params.lutImpl = false ∧ (idle true).params.lutImpl = true
    ∧ (0 : Nat) < (idle true).params.n ∧ (23 : Nat) < (idle true).params.m / 8 := by decide

theorem test_witness_CompressWritesTheSubsetSums :
    (idle false).lutFresh ∧ tabled.lutFresh ∧ (0 : Nat) < tabled.params.n :=
  ⟨test_fresh_without_table _ rfl, fun _ => test_fresh_tabled, by decide⟩

theorem test_witness_HwriteAbsorbsWholeBlocks :
    ({ idle false with buf := List.replicate 15 0 } : State).buf.length < (idle false).params.blockSize
      ∧ (24 : BitVec 16).toNat ≤ (idle false).params.m / 8
      ∧ (0 : BitVec 16).toNat ≤ (idle false).params.m / 8 := by decide

theorem test_witness_HsumWritesTheDigest :
    (idle false).buf.length < (idle false).params.blockSize
      ∧ ({ idle false with buf := List.replicate 15 0 } : State).buf.length
        < (idle false).params.blockSize := by decide

theorem test_witness_EngineNeverWritesOperandArrays :
    ∀ i ∈ [Instr.nop, .commit, .compress, .hreset, .hwrite 24, .hsum],
      ∃ t, exec i tabled = .next t := by
  intro i _
  cases i <;> exact ⟨_, rfl⟩

theorem test_witness_TableDatapathEqualsMatrixDatapath :
    tabled.lut = tabled.buildLut ∧ (0 : Nat) < tabled.params.n := ⟨test_fresh_tabled, by decide⟩

theorem test_witness_CompressionAddsOverDisjointInputs :
    tabled.lutFresh ∧ (List.replicate 24 (0x0F : Byte)).length = tabled.params.m / 8
      ∧ (List.replicate 24 (0xF0 : Byte)).length = tabled.params.m / 8
      ∧ (∀ i < tabled.params.m, ¬ (bitOf (List.replicate 24 0x0F) i = true
        ∧ bitOf (List.replicate 24 0xF0) i = true)) ∧ (0 : Nat) < tabled.params.n :=
  ⟨fun _ => test_fresh_tabled, by decide, by decide, by decide +kernel, by decide⟩

theorem test_witness_LaneReadsOnlyItsBundle :
    ∃ s t : State, t.params.n = s.params.n ∧ t.params.m = s.params.m ∧ s.lutFresh ∧ t.lutFresh
      ∧ 0 < s.params.n ∧ (∀ i < s.params.m, t.matEntry 0 i = s.matEntry 0 i)
      ∧ t.params.lutImpl ≠ s.params.lutImpl :=
  ⟨loaded [(0, 1)] [], tabled, rfl, rfl, test_fresh_without_table _ rfl, fun _ => test_fresh_tabled,
    by decide, fun _ _ => rfl, by decide⟩

/-- The input selects the first and the last entry, which are all ones; the others are not. -/
theorem test_witness_AllOnesEntriesWrapAround :
    (loaded [(0, BitVec.allOnes 64), (1, 7), (191, BitVec.allOnes 64)] []).lutFresh
    ∧ 0 < (idle false).params.n
    ∧ (∀ i < 192, bitOf (0x01 :: zeros 22 ++ [0x80]) i = true →
      (loaded [(0, BitVec.allOnes 64), (1, 7), (191, BitVec.allOnes 64)] []).matEntry 0 i
        = BitVec.allOnes 64)
    ∧ bitOf (0x01 :: zeros 22 ++ [0x80]) 191 = true :=
  ⟨test_fresh_without_table _ rfl, by decide, by decide +kernel, by decide⟩

theorem test_witness_AbsorptionCompressesSaltedBlockThenChain :
    tabled.lutFresh ∧ tabled.chain.length = 8 * tabled.params.n
      ∧ (zeros 16).length = tabled.params.blockSize ∧ (0 : Nat) < tabled.params.n :=
  ⟨fun _ => test_fresh_tabled, by decide, by decide, by decide⟩

theorem test_witness_ZeroSaltChangesNoBlock :
    (∀ j < (idle false).params.blockSize, (idle false).readByte (0x3000 + j) = 0)
      ∧ (List.replicate 16 (0xA5 : Byte)).length = (idle false).params.blockSize := by
  decide +kernel

/-- T1 locked, with IN starting 07, and its state after HWRITE 1. -/
def split0 : State := loaded [(0, 1)] [0x07]
def split1 : State := { split0 with buf := [0x07], count := 1, done := true }

theorem test_storing_input_keeps_the_matrix (t : State) (vs : List Byte) (h : vs.length ≤ 24) :
    sameMatrix t (t.storeBytes inBase vs) := by
  refine ⟨rfl, rfl, fun k _ i _ => ?_⟩
  apply State.matEntry_congr (State.storeBytes_params _ _ _)
  intro a ha
  apply State.readByte_storeBytes_of_outside
  simp only [inBase, matBase] at ha ⊢
  omega

/-- HWRITE 1 of 07, then IN rewritten and HWRITE 1 of 09, beside HWRITE 2 of 07 09. -/
theorem test_witness_SplitHwritesLeaveTheSameHashState :
    (2 : BitVec 16).toNat = (1 : BitVec 16).toNat + (1 : BitVec 16).toNat
    ∧ (2 : BitVec 16).toNat ≤ split0.params.m / 8
    ∧ exec (.hwrite 1) split0 = .next split1
    ∧ sameHash split1 (split1.storeBytes inBase [0x09])
    ∧ sameMatrix split0 (split1.storeBytes inBase [0x09])
    ∧ (split1.storeBytes inBase [0x09]).saltBytes = split0.saltBytes
    ∧ (∃ u', exec (.hwrite 1) (split1.storeBytes inBase [0x09]) = .next u')
    ∧ sameHash split0 (split0.storeBytes inBase [0x07, 0x09])
    ∧ sameMatrix split0 (split0.storeBytes inBase [0x07, 0x09])
    ∧ (split0.storeBytes inBase [0x07, 0x09]).saltBytes = split0.saltBytes
    ∧ (split0.storeBytes inBase [0x07, 0x09]).readBytes 0x2000 (2 : BitVec 16).toNat
      = split0.readBytes 0x2000 (1 : BitVec 16).toNat
        ++ (split1.storeBytes inBase [0x09]).readBytes 0x2000 (1 : BitVec 16).toNat
    ∧ ∃ w', exec (.hwrite 2) (split0.storeBytes inBase [0x07, 0x09]) = .next w' := by
  have h := test_storing_input_keeps_the_matrix split1 [0x09] (by decide)
  have h1 : nextOf (exec (.hwrite 1) split0) = some split1 := by decide +kernel
  exact ⟨by decide, by decide, congrArg Host.Outcome.next (Option.some.inj h1), ⟨rfl, rfl, rfl⟩,
    ⟨h.params_eq, h.lut_eq, h.entry_eq⟩, by decide +kernel, ⟨_, rfl⟩, ⟨rfl, rfl, rfl⟩,
    test_storing_input_keeps_the_matrix split0 _ (by decide), by decide +kernel, by decide +kernel,
    ⟨_, rfl⟩⟩

theorem test_witness_HwriteOfNothingKeepsTheHashState :
    (loaded [] []).pending = none ∧ (loaded [] []).locked = true := by decide

/-- The boundary of the two cases for B = 16 and B = 80. -/
theorem test_witness_PaddingFillsOneOrTwoBlocks :
    (16 ≤ 80 ∧ (zeros 63).length < 80 ∧ (zeros 63).length + 17 ≤ 80)
      ∧ (16 ≤ 80 ∧ (zeros 64).length < 80 ∧ 80 < (zeros 64).length + 17)
      ∧ (16 ≤ 16 ∧ (zeros 15).length < 16 ∧ 16 < (zeros 15).length + 17) := by decide

theorem test_witness_HsumIsRepeatable :
    ∃ t u, exec .hsum tabled = .next t ∧ exec .hsum t = .next u := ⟨_, _, rfl, rfl⟩

theorem test_witness_HsumDoesNotDisturbLaterWrites :
    ∃ s1 s2 s3 r1 r2, exec .hsum tabled = .next s1 ∧ exec (.hwrite 24) s1 = .next s2
      ∧ exec .hsum s2 = .next s3 ∧ exec (.hwrite 24) tabled = .next r1
      ∧ exec .hsum r1 = .next r2 := ⟨_, _, _, _, _, rfl, rfl, rfl, rfl, rfl⟩

theorem test_witness_DigestDependsOnlyOnHashStateSaltAndMatrix :
    ∃ s t : State, t.params.n = s.params.n ∧ t.params.m = s.params.m ∧ s.lutFresh ∧ t.lutFresh
      ∧ sameHash s t
      ∧ (∀ j < s.params.blockSize, t.readByte (0x3000 + j) = s.readByte (0x3000 + j))
      ∧ (∀ k < s.params.n, ∀ i < s.params.m, t.matEntry k i = s.matEntry k i)
      ∧ t.params.lutImpl ≠ s.params.lutImpl :=
  ⟨loaded [(0, 1)] [], tabled, rfl, rfl, test_fresh_without_table _ rfl, fun _ => test_fresh_tabled,
    ⟨rfl, rfl, rfl⟩, by decide +kernel, fun _ _ _ _ => rfl, by decide⟩

theorem test_witness_UnwrittenMatrixWordReadsOneFixedValue :
    ∀ w ∈ [0, 191], w < (idle false).params.n * (idle false).params.m
      ∧ ∀ j < 8, Memory.lookup (idle false).mem (0x8000000 + 8 * w + j) = none := by decide

theorem test_witness_CompleteMatrixHoldsNoUnspecifiedValue :
    saturated.matComplete ∧ 0 < saturated.params.n ∧ 191 < saturated.params.m := by
  refine ⟨fun t ht j hj => ?_, by decide, by decide⟩
  have hw : saturated.params.matWords = 192 := rfl
  rw [saturated, State.storeBytes_mem, Memory.lookup_storeBytes_matrix (Nat.le_refl _)]
  · rfl
  · rw [List.length_replicate]
    omega

theorem test_witness_StepRunsThePendingCommand :
    working.pending = some 0x02 ∧ decodeWord 0x02 = .ok .compress ∧ working.events = []
      ∧ ({ working with events := [.complete] } : State).events = .complete :: [] := by decide

/-- The first and last offset of the window, and the addresses next to it. -/
theorem test_witness_StepCarriesOutOneHostAccess :
    ({ idle false with events := [.read 0x40000000 8] } : State).events = .read 0x40000000 8 :: []
    ∧ ({ idle false with events := [.write 0x4FFFFFFF 8 5] } : State).events
      = .write 0x4FFFFFFF 8 5 :: []
    ∧ 0x40000000 = (idle false).params.base + (0x0000000 : Offset).toNat
    ∧ 0x4FFFFFFF = (idle false).params.base + (0xFFFFFFF : Offset).toNat
    ∧ 0x3FFFFFFF < (idle false).params.base ∧ (idle false).params.base + 2 ^ 28 ≤ 0x50000000
    ∧ (idle false).pending = none ∧ (idle false).events = []
    ∧ ({ idle false with events := [.complete] } : State).events = .complete :: [] := by decide

theorem test_witness_EveryStepKeepsTheInvariant :
    (idle false).Inv ∧ ∃ t, step (idle false) = .next t := ⟨test_idle_inv, _, rfl⟩

theorem test_witness_NoStepFromTheInvariantStops : (idle false).Inv := test_idle_inv

end Sys2Proof.Tests
end

section
/-! SUPPORT. The statements of 00_scope.md: what the reset state reads as, and that the step of a
host access is that access. -/

namespace Sys2Proof.Machine

/-! ### Addresses and offsets (20_memory.md R60) -/

theorem offsetOf_base_add (p : Params) (off : Offset) :
    p.offsetOf (p.base + off.toNat) = some off := by
  have hlt : off.toNat < 2 ^ 28 := off.isLt
  have hin : p.base ≤ p.base + off.toNat ∧ p.base + off.toNat < p.base + 2 ^ 28 := by omega
  rw [Params.offsetOf, if_pos hin, Nat.add_sub_cancel_left, BitVec.ofNat_toNat, BitVec.setWidth_eq]

theorem offsetOf_outside {p : Params} {addr : Nat} (h : addr < p.base ∨ p.base + 2 ^ 28 ≤ addr) :
    p.offsetOf addr = none := by
  rw [Params.offsetOf, if_neg (by omega)]

theorem State.busRead_at (s : State) (off : Offset) (size : Nat) :
    s.busRead (s.params.base + off.toNat) size = s.hostRead off size := by
  simp only [State.busRead, offsetOf_base_add]

theorem State.busRead_outside {s : State} {addr : Nat} (size : Nat)
    (h : addr < s.params.base ∨ s.params.base + 2 ^ 28 ≤ addr) : s.busRead addr size = s := by
  simp only [State.busRead, offsetOf_outside h]

theorem State.busWrite_at (s : State) (off : Offset) (size : Nat) (v : Word) :
    s.busWrite (s.params.base + off.toNat) size v = s.hostWrite off size v := by
  simp only [State.busWrite, offsetOf_base_add]

theorem State.busWrite_outside {s : State} {addr : Nat} (size : Nat) (v : Word)
    (h : addr < s.params.base ∨ s.params.base + 2 ^ 28 ≤ addr) : s.busWrite addr size v = s := by
  simp only [State.busWrite, offsetOf_outside h]

/-! ### The step of each event (00_scope.md R10) -/

theorem State.nextMove_of_event {s : State} {e : Event} {es : List Event} (h : s.events = e :: es) :
    s.nextMove = ({ s with events := es } : State).react e := by
  simp only [State.nextMove, h]

theorem State.nextMove_of_no_event {s : State} (h : s.events = []) : s.nextMove = s.fetch := by
  simp only [State.nextMove, h]

theorem State.fetch_idle {s : State} (h : s.pending = none) : s.fetch = .advance s := by
  simp only [State.fetch, h]

theorem step_of_advance {s t : State} (h : s.nextMove = .advance t) : step s = .next t := by
  simp only [step, h]

theorem step_read_at {s : State} {off : Offset} {size : Nat} {es : List Event}
    (h : s.events = .read (s.params.base + off.toNat) size :: es) :
    step s = .next (({ s with events := es } : State).hostRead off size) :=
  step_of_advance ((State.nextMove_of_event h).trans
    (congrArg Move.advance (State.busRead_at { s with events := es } off size)))

theorem step_read_outside {s : State} {addr size : Nat} {es : List Event}
    (h : s.events = .read addr size :: es)
    (hout : addr < s.params.base ∨ s.params.base + 2 ^ 28 ≤ addr) :
    step s = .next { s with events := es } :=
  step_of_advance ((State.nextMove_of_event h).trans
    (congrArg Move.advance (State.busRead_outside (s := { s with events := es }) size hout)))

theorem step_write_at {s : State} {off : Offset} {size : Nat} {v : Word} {es : List Event}
    (h : s.events = .write (s.params.base + off.toNat) size v :: es) :
    step s = .next (({ s with events := es } : State).hostWrite off size v) :=
  step_of_advance ((State.nextMove_of_event h).trans
    (congrArg Move.advance (State.busWrite_at { s with events := es } off size v)))

theorem step_write_outside {s : State} {addr size : Nat} {v : Word} {es : List Event}
    (h : s.events = .write addr size v :: es)
    (hout : addr < s.params.base ∨ s.params.base + 2 ^ 28 ≤ addr) :
    step s = .next { s with events := es } :=
  step_of_advance ((State.nextMove_of_event h).trans
    (congrArg Move.advance (State.busWrite_outside (s := { s with events := es }) size v hout)))

theorem step_idle_of_no_event {s : State} (hp : s.pending = none) (he : s.events = []) :
    step s = .next s :=
  step_of_advance ((State.nextMove_of_no_event he).trans (State.fetch_idle hp))

theorem step_idle_of_complete {s : State} {es : List Event} (hp : s.pending = none)
    (he : s.events = .complete :: es) : step s = .next { s with events := es } :=
  step_of_advance ((State.nextMove_of_event he).trans
    (State.fetch_idle (s := { s with events := es }) hp))

/-! ### Reads of mapped offsets and of unwritten bytes -/

/-- An aligned 8-byte read of a mapped offset is answered by its region (20_memory.md R67). -/
theorem State.hostRead_of_region {s : State} {off : Offset} {r : Region} (ha : off.toNat % 8 = 0)
    (hr : s.params.region off.toNat = some r) : s.hostRead off 8 = s.readRegion r off.toNat := by
  simp only [State.hostRead, (accessOk_iff off 8).mpr ⟨rfl, ha⟩, if_true, hr]

/-- While idle every read has its specified data (20_memory.md R67, R70). -/
theorem State.readRegion_idle {s : State} (h : s.pending = none) (r : Region) (off : Nat) :
    s.readRegion r off = s.respondOkay (s.readData r off) := by
  have hb : s.busy = false := by rw [State.busy, h, Option.isSome_none]
  simp only [State.readRegion, hb, Bool.false_and, Bool.false_eq_true, if_false]

/-- Below MAT a byte that is not listed is 0 (70_reset_and_hazards.md R201). -/
theorem State.readByte_eq_zero_of_unlisted {s : State} {a : Nat} (hl : Memory.lookup s.mem a = none)
    (ha : a < matBase) : s.readByte a = 0 := by
  have hu : Memory.unlisted a = some 0 := if_pos ha
  simp only [State.readByte, hl, State.unlistedByte, hu]

/-! ### The reset state of an instance (70_reset_and_hazards.md R201) -/

theorem State.ctrlWord_eq_zero {s : State} (hd : s.ieDone = false) (he : s.ieErr = false) :
    s.ctrlWord = 0 := by
  rw [State.ctrlWord, hd, he]
  decide

theorem State.statusWord_eq_zero {s : State} (hl : s.locked = false) (hm : s.errMulti = false)
    (he : s.err = false) (hd : s.done = false) (hb : s.busy = false) : s.statusWord = 0 := by
  rw [State.statusWord, hl, hm, he, hd, hb]
  decide

theorem State.errcodeWord_eq_zero {s : State} (hc : s.errCode = .none) (hi : s.errInfo = 0) :
    s.errcodeWord = 0 := by
  rw [State.errcodeWord, hc, hi]
  decide

theorem State.buflenWord_eq_zero {s : State} (h : s.buf = []) : s.buflenWord = 0 := by
  rw [State.buflenWord, h]
  decide

/-- The registers whose reset value is 0 read 0 right after reset. -/
theorem State.resetFor_readData (p : Params) {r : Region} (off : Nat)
    (hr : r ∈ [Region.ctrl, .status, .errcode, .count, .buflen]) :
    (State.resetFor p).readData r off = 0 := by
  simp only [List.mem_cons, List.not_mem_nil, or_false] at hr
  rcases hr with rfl | rfl | rfl | rfl | rfl
  · exact State.ctrlWord_eq_zero rfl rfl
  · exact State.statusWord_eq_zero rfl rfl rfl rfl rfl
  · exact State.errcodeWord_eq_zero rfl rfl
  · rfl
  · exact State.buflenWord_eq_zero rfl

theorem State.resetFor_hostRead_response {p : Params} {off : Offset} {r : Region}
    (hm : (off.toNat, 8, r) ∈ p.addressMap) (ha : off.toNat % 8 = 0)
    (hr : r ∈ [Region.ctrl, .status, .errcode, .count, .buflen]) :
    ((State.resetFor p).hostRead off 8).response = some ⟨true, 0⟩ := by
  have hreg : p.region off.toNat = some r := region_of_mem hm (by omega)
  rw [State.hostRead_of_region (s := State.resetFor p) ha hreg, State.readRegion_idle rfl,
    State.resetFor_readData p _ hr, State.respondOkay_response]

theorem State.resetFor_readByte (p : Params) {a : Nat} (ha : a < matBase) :
    (State.resetFor p).readByte a = 0 :=
  State.readByte_eq_zero_of_unlisted rfl ha

/-! ### The statements -/

/-- Settles O29: the five registers and the arrays of any instance's reset state, at the reference
instance. -/
theorem resetStateReadsAsSpecified : Obligations.ResetStateReadsAsSpecified := by
  have hread {off : Offset} {r : Region} (hm : (off.toNat, 8, r) ∈ Params.reference.addressMap)
      (ha : off.toNat % 8 = 0) (hr : r ∈ [Region.ctrl, .status, .errcode, .count, .buflen]) :
      (State.reset.hostRead off 8).response = some ⟨true, 0⟩ :=
    State.resetFor_hostRead_response hm ha hr
  refine ⟨rfl, rfl, ?ctrl, ?status, ?errcode, ?count, ?buflen, ?memory, rfl, rfl, rfl⟩
  case ctrl => exact hread (r := .ctrl) (by decide) (by decide) (by decide)
  case status => exact hread (r := .status) (by decide) (by decide) (by decide)
  case errcode => exact hread (r := .errcode) (by decide) (by decide) (by decide)
  case count => exact hread (r := .count) (by decide) (by decide) (by decide)
  case buflen => exact hread (r := .buflen) (by decide) (by decide) (by decide)
  case memory => exact fun a ha => State.resetFor_readByte Params.reference ha

/-- Settles O53: the step of each event, and what an access does at an address inside and outside
the window. -/
theorem stepCarriesOutOneHostAccess : Obligations.StepCarriesOutOneHostAccess := by
  intro s
  refine ⟨fun addr size es he => ⟨?read_at, step_read_outside he⟩,
    fun addr size v es he => ⟨?write_at, step_write_outside he⟩,
    step_idle_of_no_event, fun _ => step_idle_of_complete⟩
  case read_at =>
    rintro off rfl
    exact step_read_at he
  case write_at =>
    rintro off rfl
    exact step_write_at he

end Sys2Proof.Machine
end

section
/-! SUPPORT. Every step keeps the invariant of SHC's state: one lemma for each shared operation, one
for each kind of access and one for the completions. -/

namespace Sys2Proof.Machine

/-! ### The words of the array windows (20_memory.md R62) -/

theorem addressMap_aligned (p : Params) :
    ∀ e ∈ p.addressMap, e.1 % 8 = 0 ∧ e.2.1 % 8 = 0 := by
  have hi := params_inputLen_mod p
  have hs := params_blockSize_mod p
  simp only [Params.addressMap, Params.outputLen, outBase, inBase, saltBase, matBase,
    List.forall_mem_cons, List.not_mem_nil, false_implies, implies_true, true_and, and_true]
  omega

/-- The eight bytes of an aligned word lie in one range of the address map. -/
theorem region_word {p : Params} {a x : Nat} {r : Region} (h : p.region a = some r) (ha : a % 8 = 0)
    (hx : a ≤ x ∧ x < a + 8) : p.region x = some r := by
  obtain ⟨b, z, hm, hbz⟩ := region_mem h
  obtain ⟨hb, hz⟩ : b % 8 = 0 ∧ z % 8 = 0 := addressMap_aligned p _ hm
  exact region_of_mem hm (by omega)

theorem inArray_of_region {p : Params} {a : Nat} {r : Region}
    (hr : r = .out ∨ r = .inp ∨ r = .salt ∨ r = .mat) (h : p.region a = some r) :
    p.inArray a = true := by
  simp only [Params.inArray, Bool.or_eq_true, within_iff]
  rcases hr with rfl | rfl | rfl | rfl
  · exact .inl (.inl (.inl (region_out h)))
  · exact .inl (.inl (.inr (region_inp h)))
  · exact .inl (.inr (region_salt h))
  · exact .inr (region_mat h)

/-! ### Changes of registers -/

/-- The part of the invariant about the error record (10_state.md R24, R25; 60_exceptions.md
R170). -/
def State.errorCoherent (s : State) : Prop :=
  (s.err = false → s.errMulti = false ∧ s.errCode = .none ∧ s.errInfo = 0) ∧
  (s.err = true → s.errCode ≠ .none)

theorem State.Inv.errorCoherent {s : State} (hs : s.Inv) : s.errorCoherent :=
  ⟨hs.error_quiet, hs.error_named⟩

/-- A change of registers alone keeps the invariant if the error record is coherent and what is
pending is admitted. -/
theorem State.Inv.of_registers {s t : State} (hs : s.Inv)
    (ht : t = { s with
      ieDone := t.ieDone, ieErr := t.ieErr, done := t.done, err := t.err, errMulti := t.errMulti,
      errCode := t.errCode, errInfo := t.errInfo, count := t.count, pending := t.pending,
      events := t.events, response := t.response, busyReads := t.busyReads })
    (he : t.errorCoherent)
    (hp : ∀ c, t.pending = some c → wordError s.params s.locked c = none) : t.Inv := by
  have hparams : t.params = s.params := by rw [ht]
  have hmem : t.mem = s.mem := by rw [ht]
  have hlut : t.lut = s.lut := by rw [ht]
  have hlocked : t.locked = s.locked := by rw [ht]
  have hresets : t.hardResets = s.hardResets := by rw [ht]
  have hchain : t.chain = s.chain := by rw [ht]
  have hbuf : t.buf = s.buf := by rw [ht]
  have hbuild : t.buildLut = s.buildLut :=
    State.buildLut_congr hparams (State.matEntry_eq_of_mem hparams hmem hresets)
  constructor
  case mem_canonical => exact hmem ▸ hs.mem_canonical
  case mem_mapped => exact hmem ▸ hparams ▸ hs.mem_mapped
  case mat_whole => exact hmem ▸ hparams ▸ hs.mat_whole
  case chain_length => exact hchain ▸ hparams ▸ hs.chain_length
  case buf_short => exact hbuf ▸ hparams ▸ hs.buf_short
  case error_quiet => exact he.1
  case error_named => exact he.2
  case pending_admitted => exact hlocked ▸ hparams ▸ hp
  case lut_coherent =>
    intro hl hi
    rw [hlut, hbuild]
    exact hs.lut_coherent (hlocked ▸ hl) (hparams ▸ hi)
  case lut_absent => exact hlut ▸ hparams ▸ hs.lut_absent

theorem State.Inv.events {s : State} (hs : s.Inv) (es : List Event) :
    ({ s with events := es } : State).Inv :=
  hs.of_registers rfl hs.errorCoherent hs.pending_admitted

theorem State.Inv.respondOkay {s : State} (hs : s.Inv) (v : Word) : (s.respondOkay v).Inv :=
  hs.of_registers rfl hs.errorCoherent hs.pending_admitted

theorem State.Inv.respondUnspecified {s : State} (hs : s.Inv) : s.respondUnspecified.Inv :=
  hs.of_registers rfl hs.errorCoherent hs.pending_admitted

theorem State.Inv.complete {s : State} (hs : s.Inv) : s.complete.Inv :=
  hs.of_registers rfl hs.errorCoherent (fun _ hc => by cases hc)

/-- Error entry names an error, and keeps the name of the first (60_exceptions.md R172). -/
theorem State.raise_errorCoherent {s : State} (hs : s.errorCoherent) {e : ErrorCode} (he : e ≠ .none)
    (x : BitVec 32) : (s.raise e x).errorCoherent := by
  refine ⟨fun hq => ?_, fun _ => ?_⟩
  · rw [State.raise_err] at hq
    cases hq
  · rw [State.raise_errCode]
    split
    · next h => exact hs.2 h
    · exact he

theorem State.Inv.raise {s : State} (hs : s.Inv) {e : ErrorCode} (he : e ≠ .none) (x : BitVec 32) :
    (s.raise e x).Inv := by
  refine hs.of_registers ?_ (State.raise_errorCoherent hs.errorCoherent he x) ?_
  · conv_lhs => rw [State.raise_frame]
    simp
  · rw [State.raise_pending]
    exact hs.pending_admitted

theorem State.Inv.accessError {s : State} (hs : s.Inv) {e : ErrorCode} (he : e ≠ .none)
    (off : Offset) : (s.accessError e off).Inv :=
  have hr := hs.raise he (off.zeroExtend 32)
  hr.of_registers rfl hr.errorCoherent hr.pending_admitted

theorem State.Inv.writeStatus {s : State} (hs : s.Inv) (v : Word) : (s.writeStatus v).Inv := by
  rw [State.writeStatus_eq]
  refine hs.of_registers rfl ?_ hs.pending_admitted
  cases hv : v.getLsbD 2
  · simpa [State.errorCoherent] using hs.errorCoherent
  · simp [State.errorCoherent]

/-- A word becomes pending only when the acceptance checks pass (40_compressor.md R111). -/
theorem State.Inv.present {s : State} (hs : s.Inv) (c : Word) : (s.present c).Inv := by
  rcases s.present_cases c with ⟨e, he, -, heq⟩ | ⟨-, hok, heq⟩ <;> rw [heq]
  · exact hs.raise he _
  · refine hs.of_registers rfl hs.errorCoherent fun d hd => ?_
    cases hd
    exact hok

/-! ### Changes of the arrays and of the hash state -/

/-- A store inside the arrays keeps the invariant if it keeps MAT words whole and leaves a locked
matrix alone. -/
theorem State.Inv.storeBytes {s : State} (hs : s.Inv) {a : Nat} {vs : List Byte}
    (hin : ∀ x, a ≤ x ∧ x < a + vs.length → s.params.inArray x = true)
    (hwhole : ∀ t < s.params.matWords, ∀ j < 8,
      (Memory.lookup (Memory.storeBytes s.mem a vs) (matBase + 8 * t + j)).isSome
        = (Memory.lookup (Memory.storeBytes s.mem a vs) (matBase + 8 * t)).isSome)
    (hlut : s.locked = true → (s.storeBytes a vs).buildLut = s.buildLut) :
    (s.storeBytes a vs).Inv where
  mem_canonical := Memory.wf_storeBytes a vs hs.mem_canonical
  mem_mapped c hc := (Memory.mem_storeBytes hc).elim (hs.mem_mapped c) (hin c.1)
  mat_whole := hwhole
  chain_length := hs.chain_length
  buf_short := hs.buf_short
  error_quiet := hs.error_quiet
  error_named := hs.error_named
  pending_admitted := hs.pending_admitted
  lut_coherent hl hi := (hs.lut_coherent hl hi).trans (hlut hl).symm
  lut_absent := hs.lut_absent

/-- A store below MAT touches neither the matrix nor what the table is built from. -/
theorem State.Inv.storeBytes_below_matrix {s : State} (hs : s.Inv) {a : Nat} {vs : List Byte}
    (hin : ∀ x, a ≤ x ∧ x < a + vs.length → s.params.inArray x = true)
    (hlow : a + vs.length ≤ matBase) : (s.storeBytes a vs).Inv := by
  refine hs.storeBytes hin (fun t ht j hj => ?_) fun _ => ?_
  · rw [Memory.lookup_storeBytes_of_outside (by omega),
      Memory.lookup_storeBytes_of_outside (by omega)]
    exact hs.mat_whole t ht j hj
  · exact State.buildLut_congr rfl (State.matEntry_congr rfl fun x hx =>
      State.readByte_storeBytes_of_outside s a vs x (by omega))

/-- A whole word stored in MAT lists all its eight bytes, and no byte of another word (20_memory.md
R66). -/
theorem State.storeWord_matrix_whole {s : State} (hs : s.Inv) {a : Nat} (v : Word)
    (hbase : matBase ≤ a) (ha : a % 8 = 0) {t j : Nat} (ht : t < s.params.matWords) (hj : j < 8) :
    (Memory.lookup (s.storeWord a v).mem (matBase + 8 * t + j)).isSome
      = (Memory.lookup (s.storeWord a v).mem (matBase + 8 * t)).isSome := by
  have hlen : (le64 v).length = 8 := le64_length v
  have hmat : matBase % 8 = 0 := rfl
  simp only [State.storeWord, State.storeBytes_mem]
  by_cases hta : matBase + 8 * t = a
  · rw [Memory.lookup_storeBytes_matrix hbase (by omega),
      Memory.lookup_storeBytes_matrix hbase (by omega)]
    rfl
  · rw [Memory.lookup_storeBytes_of_outside (by omega),
      Memory.lookup_storeBytes_of_outside (by omega)]
    exact hs.mat_whole t ht j hj

/-- An accepted write to IN, SALT or an unlocked MAT keeps the invariant (20_memory.md R68). -/
theorem State.Inv.storeWord {s : State} (hs : s.Inv) {a : Nat} (v : Word) (ha : a % 8 = 0)
    (hr : s.params.region a = some .inp ∨ s.params.region a = some .salt
      ∨ (s.params.region a = some .mat ∧ s.locked = false)) : (s.storeWord a v).Inv := by
  have hlen : (le64 v).length = 8 := le64_length v
  have hin {r : Region} (harr : r = .out ∨ r = .inp ∨ r = .salt ∨ r = .mat)
      (h : s.params.region a = some r) (x : Nat) (hx : a ≤ x ∧ x < a + (le64 v).length) :
      s.params.inArray x = true :=
    inArray_of_region harr (region_word h ha (hlen ▸ hx))
  rcases hr with h | h | ⟨h, hunlocked⟩
  · have hrange := region_inp h
    have hmax := params_inputLen_high s.params
    refine hs.storeBytes_below_matrix (hin (by simp) h) ?_
    simp only [inBase, matBase, hlen] at hrange ⊢
    omega
  · have hrange := region_salt h
    have hmax := params_blockSize_high s.params
    refine hs.storeBytes_below_matrix (hin (by simp) h) ?_
    simp only [saltBase, matBase, hlen] at hrange ⊢
    omega
  · refine hs.storeBytes (hin (by simp) h) ?_ fun hl => ?_
    · exact fun t ht j hj => State.storeWord_matrix_whole hs v (region_mat h).1 ha ht hj
    · rw [hunlocked] at hl
      cases hl

/-- What a command writes to OUT keeps the invariant. -/
theorem State.Inv.storeOut {s : State} (hs : s.Inv) {vs : List Byte}
    (hvs : vs.length = 8 * s.params.n) : (s.storeBytes outBase vs).Inv := by
  have hmax := params_outputLen_high s.params
  have hlen : vs.length = s.params.outputLen := hvs
  refine hs.storeBytes_below_matrix (fun x hx => ?_) ?_
  · exact inArray_of_region (.inl rfl) (region_of_out (hlen ▸ hx))
  · simp only [outBase, matBase, hlen]
    omega

theorem State.Inv.hashState {s : State} (hs : s.Inv) {h b : List Byte} (cnt : Word)
    (hh : h.length = 8 * s.params.n) (hb : b.length < s.params.blockSize) :
    ({ s with chain := h, buf := b, count := cnt } : State).Inv :=
  { hs with
    chain_length := hh
    buf_short := hb
    lut_coherent := fun hl hi => (hs.lut_coherent hl hi).trans
      (State.buildLut_congr rfl (State.matEntry_eq_of_mem rfl rfl rfl)) }

/-! ### Resets (70_reset_and_hazards.md R201, R202) -/

/-- A state with the registers of a reset has the invariant if its memory has. -/
theorem State.Inv.of_reset {t : State}
    (ht : t = { State.resetFor t.params with
      mem := t.mem, events := t.events, response := t.response, busyReads := t.busyReads,
      hardResets := t.hardResets })
    (hcanonical : Memory.wf t.mem = true)
    (hmapped : ∀ c ∈ t.mem, t.params.inArray c.1 = true)
    (hwhole : ∀ w < t.params.matWords, ∀ j < 8,
      (Memory.lookup t.mem (matBase + 8 * w + j)).isSome
        = (Memory.lookup t.mem (matBase + 8 * w)).isSome) : t.Inv := by
  have hbuf : 0 < t.params.blockSize := by
    have := params_blockSize_low t.params
    omega
  constructor
  case mem_canonical => exact hcanonical
  case mem_mapped => exact hmapped
  case mat_whole => exact hwhole
  case chain_length => rw [ht]; exact List.length_replicate
  case buf_short => rw [ht]; exact hbuf
  case error_quiet => rw [ht]; exact fun _ => ⟨rfl, rfl, rfl⟩
  case error_named => rw [ht]; exact fun h => by cases h
  case pending_admitted => rw [ht]; exact fun _ h => by cases h
  case lut_coherent => rw [ht]; exact fun h => by cases h
  case lut_absent => rw [ht]; exact fun _ => rfl

theorem State.hardReset_inv (s : State) : s.hardReset.Inv :=
  State.Inv.of_reset rfl rfl (fun _ hc => by cases hc) fun _ _ _ _ => rfl

theorem State.Inv.softReset {s : State} (hs : s.Inv) : s.softReset.Inv := by
  refine State.Inv.of_reset rfl (Memory.wf_matrixPart hs.mem_canonical)
    (fun c hc => hs.mem_mapped c (List.mem_of_mem_filter hc)) fun w hw j hj => ?_
  rw [State.softReset_mem, Memory.lookup_matrixPart, Memory.lookup_matrixPart, if_pos (by omega),
    if_pos (by omega)]
  exact hs.mat_whole w hw j hj

theorem State.Inv.writeCtrl {s : State} (hs : s.Inv) (v : Word) : (s.writeCtrl v).Inv := by
  rcases s.writeCtrl_cases v with ⟨-, heq⟩ | ⟨-, heq⟩ <;> rw [heq]
  · exact hs.softReset
  · exact hs.of_registers rfl hs.errorCoherent hs.pending_admitted

/-! ### Accesses and completions -/

theorem State.Inv.hostRead {s : State} (hs : s.Inv) (off : Offset) (size : Nat) :
    (s.hostRead off size).Inv := by
  rcases s.hostRead_cases off size with ⟨e, he, heq⟩ | heq | ⟨d, heq⟩ <;> rw [heq]
  · exact hs.accessError he off
  · exact hs.respondUnspecified
  · exact hs.respondOkay d

theorem State.Inv.hostWrite {s : State} (hs : s.Inv) (off : Offset) (size : Nat) (v : Word) :
    (s.hostWrite off size v).Inv := by
  rcases s.hostWrite_cases off size v with ⟨e, he, heq⟩ | ⟨-, -, heq⟩ | ⟨-, -, heq⟩ | ⟨-, -, heq⟩
    | ⟨-, ha, -, hr, heq⟩ <;> rw [heq]
  · exact hs.accessError he off
  · exact (hs.writeCtrl v).respondOkay 0
  · exact (hs.writeStatus v).respondOkay 0
  · exact (hs.present v).respondOkay 0
  · exact (hs.storeWord v ha hr).respondOkay 0

/-- COMMIT's completion locks the matrix and builds the table from it (40_compressor.md R120). -/
theorem State.Inv.commit {s : State} (hs : s.Inv) : s.commitMatrix.complete.Inv := by
  have hbuild : s.commitMatrix.complete.buildLut = s.buildLut :=
    State.buildLut_congr rfl (State.matEntry_eq_of_mem rfl rfl rfl)
  exact { hs with
    pending_admitted := fun _ hc => by cases hc
    lut_coherent := fun _ (hi : s.params.lutImpl = true) => by
      rw [hbuild, State.complete_lut, State.commitMatrix_lut, if_pos hi]
    lut_absent := fun (hi : s.params.lutImpl = false) => by
      rw [State.complete_lut, State.commitMatrix_lut, hi]
      exact hs.lut_absent hi }

theorem State.Inv.exec {i : Instr} {s t : State} (hs : s.Inv) (h : exec i s = .next t) : t.Inv := by
  cases i <;> cases h
  case nop => exact hs.complete
  case commit => exact hs.commit
  case compress => exact (hs.storeOut (State.compress_length _ _)).complete
  case hreset =>
    have hlow := params_blockSize_low s.params
    exact (hs.hashState 0 (zeros_length _) (by simp; omega)).complete
  case hwrite len =>
    obtain ⟨hchain, hbuf⟩ := s.pushBytes_lengths (s.chain, s.buf) (s.hwriteBytes len)
      hs.chain_length hs.buf_short
    exact (hs.hashState _ hchain hbuf).complete
  case hsum => exact (hs.storeOut (State.final_length _ _ _ _)).complete

/-- Settles O54: a step takes its event off the list and is then one access, a hard reset, nothing,
or the completion of what is pending; each keeps the invariant. -/
theorem everyStepKeepsTheInvariant : Obligations.EveryStepKeepsTheInvariant := by
  intro s t hs h
  obtain ⟨u, hu, hstep⟩ := step_cases h
  have hu' : u.Inv := hu ▸ hs.events u.events
  rcases hstep with rfl | ⟨off, size, rfl⟩ | ⟨-, size, off, v, -, -, -, rfl⟩ | ⟨-, -, rfl⟩
    | ⟨-, i, -, -, hexec⟩
  · exact hu'
  · exact hu'.hostRead off size
  · exact hu'.hostWrite off size v
  · exact u.hardReset_inv
  · exact hu'.exec hexec

end Sys2Proof.Machine
end

section
/-! SUPPORT. The registers of the block (10_state.md R22 to R28): where they lie, what their words
hold field by field, and what an access to them does. -/

namespace Sys2Proof.Machine

/-! ### Accesses to registers (20_memory.md R62, R67, R68) -/

/-- The offsets of the eight registers (20_memory.md R62). -/
def registerMap : List (Offset × Region) :=
  [(0x000, .id), (0x008, .param), (0x010, .ctrl), (0x018, .status),
   (0x020, .errcode), (0x028, .cmd), (0x030, .count), (0x038, .buflen)]

/-- The registers are the first eight ranges of the address map. -/
theorem addressMap_eq_registerMap_append (p : Params) :
    p.addressMap = (registerMap.map fun e => (e.1.toNat, 8, e.2))
      ++ [(outBase, p.outputLen, .out), (inBase, p.inputLen, .inp),
        (saltBase, p.blockSize, .salt), (matBase, 8 * p.matWords, .mat)] := rfl

theorem region_register (p : Params) {off : Offset} {r : Region} (h : (off, r) ∈ registerMap) :
    p.region off.toNat = some r := by
  have hm : (off.toNat, 8, r) ∈ p.addressMap := by
    rw [addressMap_eq_registerMap_append]
    exact List.mem_append_left _ (List.mem_map_of_mem h)
  exact region_of_mem hm (by omega)

theorem registerMap_aligned : ∀ e ∈ registerMap, e.1.toNat % 8 = 0 := by decide

/-- A register that R70 does not name reads as its word, busy or not. -/
theorem State.hostRead_register (s : State) {off : Offset} {r : Region}
    (h : (off, r) ∈ registerMap) (hr : r.unspecifiedWhileBusy = false) :
    s.hostRead off 8 = s.respondOkay (s.readData r off.toNat) := by
  rw [State.hostRead_of_region (registerMap_aligned _ h) (region_register s.params h),
    State.readRegion, hr, Bool.and_false, if_neg Bool.false_ne_true]

/-- While idle every register reads as its word. -/
theorem State.hostRead_register_idle {s : State} (hidle : s.pending = none) {off : Offset}
    {r : Region} (h : (off, r) ∈ registerMap) :
    s.hostRead off 8 = s.respondOkay (s.readData r off.toNat) := by
  rw [State.hostRead_of_region (registerMap_aligned _ h) (region_register s.params h),
    State.readRegion_idle hidle]

theorem State.hostWrite_register (s : State) {off : Offset} {r : Region}
    (h : (off, r) ∈ registerMap) (v : Word) : s.hostWrite off 8 v = s.writeRegion r off v := by
  have hok : accessOk off 8 = true := (accessOk_iff off 8).mpr ⟨rfl, registerMap_aligned _ h⟩
  simp only [State.hostWrite, hok, if_true, region_register s.params h]

theorem State.answered_respondOkay (s : State) (v : Word) : s.answered true (s.respondOkay v) :=
  ⟨v, rfl⟩

theorem State.answered_accessError (s : State) (e : ErrorCode) (off : Offset) :
    (s.raise e (off.zeroExtend 32)).answered false (s.accessError e off) :=
  ⟨0, rfl⟩

/-! ### The fields of PARAM (10_state.md R22) -/

theorem paramWord_n (p : Params) : ((paramWord p).extractLsb' 0 16).toNat = p.n := by
  have hn : p.n < 2 ^ 16 := by
    have := params_outputLen_high p
    simp only [Params.outputLen] at this
    omega
  rw [paramWord, BitVec.extractLsb'_append_eq_right, BitVec.toNat_ofNat, Nat.mod_eq_of_lt hn]

theorem paramWord_m (p : Params) : ((paramWord p).extractLsb' 16 16).toNat = p.m / 64 := by
  have hm : p.m / 64 < 2 ^ 16 := by
    have := p.m_high
    omega
  rw [paramWord, BitVec.extractLsb'_append_eq_of_le (by decide), Nat.sub_self,
    BitVec.extractLsb'_append_eq_right, BitVec.toNat_ofNat, Nat.mod_eq_of_lt hm]

theorem paramWord_lutImpl (p : Params) : (paramWord p).getLsbD 32 = p.lutImpl := by
  simp only [paramWord, BitVec.getLsbD_append]
  simp

theorem paramWord_reserved (p : Params) : (paramWord p).extractLsb' 33 15 = 0 := by
  rw [paramWord, BitVec.extractLsb'_append_eq_of_le (by decide),
    BitVec.extractLsb'_append_eq_of_le (by decide),
    BitVec.extractLsb'_append_eq_of_le (by decide)]
  exact BitVec.extractLsb'_append_eq_right

theorem paramWord_blockSize (p : Params) :
    ((paramWord p).extractLsb' 48 16).toNat = p.m / 8 - 8 * p.n := by
  have hb : p.blockSize < 2 ^ 16 := by
    have := params_blockSize_high p
    omega
  have hfield : (paramWord p).extractLsb' 48 16 = BitVec.ofNat 16 p.blockSize := by
    rw [paramWord, BitVec.extractLsb'_append_eq_of_le (by decide),
      BitVec.extractLsb'_append_eq_of_le (by decide),
      BitVec.extractLsb'_append_eq_of_le (by decide)]
    exact BitVec.extractLsb'_append_eq_left
  rw [hfield, BitVec.toNat_ofNat, Nat.mod_eq_of_lt hb, Params.blockSize]

/-! ### The fields of CTRL, STATUS, ERRCODE and BUFLEN (10_state.md R23 to R25, R28) -/

theorem State.ctrlWord_fields (s : State) :
    s.ctrlWord.getLsbD 0 = s.ieDone ∧ s.ctrlWord.getLsbD 1 = s.ieErr
      ∧ s.ctrlWord.extractLsb' 2 62 = 0 := by
  refine ⟨?ieDone, ?ieErr, ?reserved⟩
  case reserved =>
    rw [State.ctrlWord, BitVec.extractLsb'_append_eq_of_le (by decide)]
    exact BitVec.extractLsb'_append_eq_left
  all_goals
    simp only [State.ctrlWord, BitVec.getLsbD_append]
    simp

theorem State.statusWord_fields (s : State) :
    s.statusWord.getLsbD 0 = s.pending.isSome ∧ s.statusWord.getLsbD 1 = s.done
      ∧ s.statusWord.getLsbD 2 = s.err ∧ s.statusWord.getLsbD 3 = s.errMulti
      ∧ s.statusWord.getLsbD 4 = s.locked ∧ s.statusWord.extractLsb' 5 59 = 0 := by
  refine ⟨?busy, ?done, ?err, ?errMulti, ?locked, ?reserved⟩
  case reserved =>
    rw [State.statusWord, BitVec.extractLsb'_append_eq_of_le (by decide),
      BitVec.extractLsb'_append_eq_of_le (by decide),
      BitVec.extractLsb'_append_eq_of_le (by decide),
      BitVec.extractLsb'_append_eq_of_le (by decide)]
    exact BitVec.extractLsb'_append_eq_left
  all_goals
    simp only [State.statusWord, State.busy, BitVec.getLsbD_append]
    simp

/-- The numbers of the error codes (60_exceptions.md R170). -/
theorem errorCode_toByte_table :
    ∀ e ∈ ([(.none, 0x00), (.illegalOpcode, 0x01), (.reservedField, 0x02), (.busy, 0x03),
      (.notLocked, 0x04), (.locked, 0x05), (.badLen, 0x06), (.badAccess, 0x10),
      (.badAddress, 0x11), (.readOnly, 0x12)] : List (ErrorCode × Byte)), e.1.toByte = e.2 := by
  decide

theorem State.errcodeWord_fields (s : State) :
    s.errcodeWord.extractLsb' 0 8 = s.errCode.toByte ∧ s.errcodeWord.extractLsb' 8 24 = 0
      ∧ s.errcodeWord.extractLsb' 32 32 = s.errInfo := by
  refine ⟨?code, ?reserved, ?info⟩
  case code => rw [State.errcodeWord, BitVec.extractLsb'_append_eq_right]
  case reserved =>
    rw [State.errcodeWord, BitVec.extractLsb'_append_eq_of_le (by decide)]
    exact BitVec.extractLsb'_append_eq_right
  case info =>
    rw [State.errcodeWord, BitVec.extractLsb'_append_eq_of_le (by decide)]
    exact BitVec.extractLsb'_append_eq_left

/-- A buffer shorter than a block fits the 16-bit field, so BUFLEN is its length. -/
theorem State.buflenWord_eq {s : State} (h : s.buf.length < s.params.blockSize) :
    s.buflenWord = BitVec.ofNat 64 s.buf.length := by
  have hb := params_blockSize_high s.params
  apply BitVec.eq_of_toNat_eq
  rw [State.buflenWord, BitVec.toNat_append]
  simp only [BitVec.toNat_ofNat, BitVec.ofNat_eq_ofNat, Nat.zero_mod, Nat.zero_shiftLeft,
    Nat.zero_or]
  omega

/-! ### OUT words (10_state.md R29, 20_memory.md R61) -/

theorem State.loadWord_byte (s : State) (a : Nat) {t : Nat} (ht : t < 8) :
    (s.loadWord a).extractLsb' (8 * t) 8 = s.readByte (a + t) :=
  byteOf_wordOf (fun t => s.readByte (a + t)) ht

theorem State.hostRead_out_idle {s : State} (hidle : s.pending = none) {w : Nat}
    (hw : w < s.params.n) :
    s.hostRead (BitVec.ofNat 28 (outBase + 8 * w)) 8
      = s.respondOkay (s.loadWord (outBase + 8 * w)) := by
  have hmax := params_outputLen_high s.params
  have hbase : outBase = 0x1000 := rfl
  have hlen : s.params.outputLen = 8 * s.params.n := rfl
  have hoff : (BitVec.ofNat 28 (outBase + 8 * w)).toNat = outBase + 8 * w := by
    rw [BitVec.toNat_ofNat, Nat.mod_eq_of_lt (by omega)]
  have hr : s.params.region (BitVec.ofNat 28 (outBase + 8 * w)).toNat = some .out := by
    rw [hoff]
    exact region_of_out (by omega)
  rw [State.hostRead_of_region (by omega) hr, State.readRegion_idle hidle, hoff, State.readData]

/-! ### The statements -/

/-- Settles O14: reads by the registers' words, refused writes by the read-only arms of the write
rule. -/
theorem idAndParamReadTheirConstants : Obligations.IdAndParamReadTheirConstants := by
  intro s
  have hid : ((0x000, .id) : Offset × Region) ∈ registerMap := by decide
  have hparam : ((0x008, .param) : Offset × Region) ∈ registerMap := by decide
  refine ⟨s.hostRead_register hid rfl, fun v => ⟨?write_id, ?write_param⟩,
    paramWord s.params, s.hostRead_register hparam rfl, paramWord_n _, paramWord_m _,
    paramWord_lutImpl _, paramWord_reserved _, paramWord_blockSize _⟩
  case write_id =>
    rw [s.hostWrite_register hid]
    exact s.answered_accessError .readOnly 0x000
  case write_param =>
    rw [s.hostWrite_register hparam]
    exact s.answered_accessError .readOnly 0x008

/-- Settles O15: each of the four registers reads as its word, busy or not, and the words' fields
are the state's. -/
theorem controlRegistersReadTheirFields : Obligations.ControlRegistersReadTheirFields := by
  intro s
  obtain ⟨hcode, hreserved, hinfo⟩ := s.errcodeWord_fields
  refine ⟨⟨s.ctrlWord, s.hostRead_register (r := .ctrl) (by decide) rfl, s.ctrlWord_fields⟩,
    ⟨s.statusWord, s.hostRead_register (r := .status) (by decide) rfl, s.statusWord_fields⟩,
    ⟨s.errcodeWord, s.hostRead_register (r := .errcode) (by decide) rfl, ?code, hreserved, hinfo⟩,
    s.hostRead_register (r := .cmd) (by decide) rfl⟩
  case code =>
    intro e he hs
    rw [hcode, hs]
    exact errorCode_toByte_table e he

/-- Settles O17: the idle reads, with BUFLEN's field wide enough and OUT's bytes in order. -/
theorem resultsReadTheirValuesWhileIdle : Obligations.ResultsReadTheirValuesWhileIdle := by
  intro s hidle
  refine ⟨State.hostRead_register_idle hidle (r := .count) (by decide), fun hbuf => ?buflen,
    fun w hw => ⟨_, State.hostRead_out_idle hidle hw, rfl, fun t ht => s.loadWord_byte _ ht⟩⟩
  case buflen =>
    rw [State.hostRead_register_idle hidle (r := .buflen) (by decide), State.readData,
      State.buflenWord_eq hbuf]
    rfl

/-- Settles O7: the write rule of STATUS field by field; the acceptance checks do not read `err`. -/
theorem statusIsWriteOneToClear : Obligations.StatusIsWriteOneToClear := by
  refine fun s v => ⟨?write, fun c => rfl⟩
  case write =>
    rw [s.hostWrite_register (r := .status) (by decide), State.writeRegion, State.writeStatus_eq]
    exact State.answered_respondOkay _ 0

/-- Settles O10: the formula of R38, and both resets clear DONE and ERR. -/
theorem interruptIsLevelOfEnabledSources : Obligations.InterruptIsLevelOfEnabledSources := by
  refine ⟨fun s => ?level, fun s => ⟨?soft, ?hard⟩⟩
  case level => simp only [State.irq, Bool.or_eq_true, Bool.and_eq_true]
  case soft => rw [State.irq, State.softReset_done, State.softReset_err]; rfl
  case hard => rw [State.irq, State.hardReset_done, State.hardReset_err]; rfl

/-- Settles O16: without an error the invariant has CODE and INFO at 0. -/
theorem errcodeReadsZeroWithoutError : Obligations.ErrcodeReadsZeroWithoutError := by
  intro s hs herr
  obtain ⟨-, hcode, hinfo⟩ := hs.error_quiet herr
  rw [s.hostRead_register (r := .errcode) (by decide) rfl, State.readData,
    State.errcodeWord_eq_zero hcode hinfo, State.respondOkay_response]

/-- Settles O26: the two cases of the CTRL write rule, each answered OKAY. -/
theorem ctrlWriteSetsEnablesOrResets : Obligations.CtrlWriteSetsEnablesOrResets := by
  intro s v
  have hwrite : s.hostWrite 0x010 8 v = (s.writeCtrl v).respondOkay 0 :=
    s.hostWrite_register (r := .ctrl) (by decide) v
  rw [hwrite]
  rcases s.writeCtrl_cases v with ⟨hbit, heq⟩ | ⟨hbit, heq⟩ <;> rw [heq]
  · exact ⟨fun hclear => absurd (hclear.symm.trans hbit) Bool.false_ne_true,
      fun _ => State.answered_respondOkay _ 0⟩
  · exact ⟨fun _ => State.answered_respondOkay _ 0,
      fun hset => absurd (hbit.symm.trans hset) Bool.false_ne_true⟩

end Sys2Proof.Machine
end

section
/-! SUPPORT. The host's accesses offset by offset (20_memory.md R62 to R72): which offsets are
mapped, what a read and a write of each range do, and what no access or completion changes. -/

namespace Sys2Proof.Machine

/-! ### The address map (20_memory.md R62, R63) -/

/-- The unmapped offsets are the gaps between the ranges of the address map. -/
theorem region_eq_none_iff (p : Params) (a : Nat) :
    p.region a = none ↔
      (0x40 ≤ a ∧ a < 0x1000) ∨ (0x1000 + 8 * p.n ≤ a ∧ a < 0x2000) ∨
      (0x2000 + p.m / 8 ≤ a ∧ a < 0x3000) ∨ (0x3000 + (p.m / 8 - 8 * p.n) ≤ a ∧ a < 0x8000000) ∨
      0x8000000 + 8 * (p.n * p.m) ≤ a := by
  have hout := params_outputLen_high p
  have hinp := params_inputLen_high p
  have hsalt := params_blockSize_high p
  simp only [Params.outputLen, Params.inputLen, Params.blockSize] at hout hinp hsalt
  simp only [Params.region, Option.map_eq_none_iff, List.find?_eq_none, within_iff,
    Params.addressMap, Params.outputLen, Params.inputLen, Params.blockSize, Params.matWords,
    outBase, inBase, saltBase, matBase, List.forall_mem_cons, List.not_mem_nil, false_implies,
    implies_true, and_true]
  omega

/-- The windows a host may write are IN, SALT and MAT. -/
theorem region_operand {p : Params} {a : Nat}
    (h : (0x2000 ≤ a ∧ a < 0x2000 + p.m / 8) ∨
      (0x3000 ≤ a ∧ a < 0x3000 + (p.m / 8 - 8 * p.n)) ∨
      (0x8000000 ≤ a ∧ a < 0x8000000 + 8 * (p.n * p.m))) :
    p.region a = some .inp ∨ p.region a = some .salt ∨ p.region a = some .mat := by
  rcases h with h | h | h
  · exact .inl (region_of_inp h)
  · exact .inr (.inl (region_of_salt h))
  · exact .inr (.inr (region_of_mat h))

/-- The index of an entry of the matrix is below `N·M`. -/
theorem matIndex_lt {p : Params} {k i : Nat} (hk : k < p.n) (hi : i < p.m) :
    k * p.m + i < p.matWords :=
  calc k * p.m + i < k * p.m + p.m := by omega
    _ = (k + 1) * p.m := (Nat.succ_mul k p.m).symm
    _ ≤ p.n * p.m := Nat.mul_le_mul_right _ hk

/-- Two entries of the matrix have two indices. -/
theorem matIndex_inj {m k i k' i' : Nat} (hi : i < m) (hi' : i' < m)
    (h : k' * m + i' = k * m + i) : (k', i') = (k, i) := by
  have hm : 0 < m := by omega
  have hk : k' = k := by
    have hdiv := congrArg (· / m) h
    simpa only [Nat.mul_comm _ m, Nat.mul_add_div hm, Nat.div_eq_of_lt hi, Nat.div_eq_of_lt hi',
      Nat.add_zero] using hdiv
  subst hk
  exact Prod.ext rfl (Nat.add_left_cancel h)

/-- The offset of an entry of the matrix fits the window of SHC. -/
theorem matOffset_toNat {p : Params} {k i : Nat} (hk : k < p.n) (hi : i < p.m) :
    (BitVec.ofNat 28 (0x8000000 + 8 * (k * p.m + i))).toNat = matBase + 8 * (k * p.m + i) := by
  have hindex := matIndex_lt hk hi
  have hmax := params_matrix_high p
  rw [BitVec.toNat_ofNat, Nat.mod_eq_of_lt (by omega)]
  rfl

/-! ### Accesses that fail the first checks (20_memory.md R62, R65) -/

theorem accessOk_eq_false {off : Offset} {size : Nat} (h : size ≠ 8 ∨ off.toNat % 8 ≠ 0) :
    accessOk off size = false := by
  rw [← Bool.not_eq_true, accessOk_iff]
  omega

theorem State.hostRead_badAccess (s : State) {off : Offset} {size : Nat}
    (h : size ≠ 8 ∨ off.toNat % 8 ≠ 0) : s.hostRead off size = s.accessError .badAccess off := by
  simp only [State.hostRead, accessOk_eq_false h, Bool.false_eq_true, if_false]

theorem State.hostWrite_badAccess (s : State) {off : Offset} {size : Nat} (v : Word)
    (h : size ≠ 8 ∨ off.toNat % 8 ≠ 0) : s.hostWrite off size v = s.accessError .badAccess off := by
  simp only [State.hostWrite, accessOk_eq_false h, Bool.false_eq_true, if_false]

theorem State.hostRead_unmapped {s : State} {off : Offset} (ha : off.toNat % 8 = 0)
    (hr : s.params.region off.toNat = none) : s.hostRead off 8 = s.accessError .badAddress off := by
  simp only [State.hostRead, (accessOk_iff off 8).mpr ⟨rfl, ha⟩, if_true, hr]

theorem State.hostWrite_unmapped {s : State} {off : Offset} (v : Word) (ha : off.toNat % 8 = 0)
    (hr : s.params.region off.toNat = none) :
    s.hostWrite off 8 v = s.accessError .badAddress off := by
  simp only [State.hostWrite, (accessOk_iff off 8).mpr ⟨rfl, ha⟩, if_true, hr]

/-- An aligned 8-byte write of a mapped offset is its region's write (20_memory.md R68). -/
theorem State.hostWrite_of_region {s : State} {off : Offset} {r : Region} (v : Word)
    (ha : off.toNat % 8 = 0) (hr : s.params.region off.toNat = some r) :
    s.hostWrite off 8 v = s.writeRegion r off v := by
  simp only [State.hostWrite, (accessOk_iff off 8).mpr ⟨rfl, ha⟩, if_true, hr]

/-! ### Reads (20_memory.md R67, R69, R70) -/

/-- Every read of a mapped offset is answered with OKAY. -/
theorem State.readRegion_response (s : State) (r : Region) (off : Nat) :
    ∃ d, (s.readRegion r off).response = some ⟨true, d⟩ := by
  unfold State.readRegion
  split
  · exact ⟨_, rfl⟩
  · exact ⟨_, rfl⟩

/-- A read is answered with OKAY only at an aligned, mapped offset. -/
theorem State.region_of_hostRead_okay {s : State} {off : Offset} {size : Nat} {d : Word}
    (h : (s.hostRead off size).response = some ⟨true, d⟩) :
    size = 8 ∧ off.toNat % 8 = 0 ∧ ∃ r, s.params.region off.toNat = some r := by
  by_cases hbad : size ≠ 8 ∨ off.toNat % 8 ≠ 0
  · rw [s.hostRead_badAccess hbad, State.accessError_response] at h
    cases h
  · obtain ⟨rfl, ha⟩ : size = 8 ∧ off.toNat % 8 = 0 := by omega
    cases hr : s.params.region off.toNat with
    | none =>
      rw [State.hostRead_unmapped ha hr, State.accessError_response] at h
      cases h
    | some r => exact ⟨rfl, ha, r, rfl⟩

/-- No read's data depends on the latest response. -/
theorem State.readData_respondOkay (s : State) (w : Word) (r : Region) (off : Nat) :
    (s.respondOkay w).readData r off = s.readData r off := by
  cases r <;> rfl

@[simp] theorem State.readByte_respondOkay (s : State) (w : Word) (a : Nat) :
    (s.respondOkay w).readByte a = s.readByte a :=
  State.readByte_congr (s.respondOkay_mem w) (s.respondOkay_hardResets w) a

@[simp] theorem State.loadWord_respondOkay (s : State) (w : Word) (a : Nat) :
    (s.respondOkay w).loadWord a = s.loadWord a :=
  State.loadWord_congr fun _ _ => s.readByte_respondOkay w _

@[simp] theorem State.matEntry_respondOkay (s : State) (w : Word) (k i : Nat) :
    (s.respondOkay w).matEntry k i = s.matEntry k i :=
  State.matEntry_eq_of_mem (s.respondOkay_params w) (s.respondOkay_mem w)
    (s.respondOkay_hardResets w) k i

/-- A word of IN, SALT or MAT reads as its bytes, busy or not. -/
theorem State.hostRead_operand {s : State} {off : Offset} (ha : off.toNat % 8 = 0)
    (hr : s.params.region off.toNat = some .inp ∨ s.params.region off.toNat = some .salt
      ∨ s.params.region off.toNat = some .mat) :
    s.hostRead off 8 = s.respondOkay (s.loadWord off.toNat) := by
  rcases hr with hr | hr | hr <;>
    simp only [State.hostRead_of_region ha hr, State.readRegion, Region.unspecifiedWhileBusy,
      Bool.and_false, Bool.false_eq_true, if_false, State.readData]

/-! ### Writes (20_memory.md R68, R71, R72) -/

theorem State.busy_of_pending {s : State} (h : s.pending ≠ none) : s.busy = true :=
  Option.isSome_iff_ne_none.mpr h

theorem State.busy_of_idle {s : State} (h : s.pending = none) : s.busy = false := by
  rw [State.busy, h, Option.isSome_none]

theorem State.writeRegion_readOnly (s : State) {r : Region}
    (hr : r ∈ [Region.id, .param, .errcode, .count, .buflen, .out]) (off : Offset) (v : Word) :
    s.writeRegion r off v = s.accessError .readOnly off := by
  cases r
  case id | param | errcode | count | buflen | out => rfl
  all_goals exact absurd hr (by decide)

/-- While busy, IN, SALT and MAT are not written (60_exceptions.md R174). -/
theorem State.hostWrite_operand_busy {s : State} {off : Offset} (v : Word)
    (hbusy : s.pending ≠ none) (ha : off.toNat % 8 = 0)
    (hr : s.params.region off.toNat = some .inp ∨ s.params.region off.toNat = some .salt
      ∨ s.params.region off.toNat = some .mat) :
    s.hostWrite off 8 v = s.accessError .busy off := by
  rcases hr with hr | hr | hr <;>
    simp only [State.hostWrite_of_region v ha hr, State.writeRegion, State.writeOperand,
      State.writeMatrix, State.busy_of_pending hbusy, if_true]

theorem State.hostWrite_matrix_locked {s : State} {off : Offset} (v : Word)
    (hidle : s.pending = none) (hlocked : s.locked = true) (ha : off.toNat % 8 = 0)
    (hr : s.params.region off.toNat = some .mat) :
    s.hostWrite off 8 v = s.accessError .locked off := by
  simp only [State.hostWrite_of_region v ha hr, State.writeRegion, State.writeMatrix,
    State.busy_of_idle hidle, hlocked, Bool.false_eq_true, if_false, if_true]

/-- While idle, a write to IN, SALT or an unlocked MAT stores its word. -/
theorem State.hostWrite_operand_idle {s : State} {off : Offset} (v : Word)
    (hidle : s.pending = none) (ha : off.toNat % 8 = 0)
    (hr : s.params.region off.toNat = some .inp ∨ s.params.region off.toNat = some .salt
      ∨ (s.params.region off.toNat = some .mat ∧ s.locked = false)) :
    s.hostWrite off 8 v = (s.storeWord off.toNat v).respondOkay 0 := by
  have hbusy := State.busy_of_idle hidle
  rcases hr with hr | hr | ⟨hr, hunlocked⟩
  · simp only [State.hostWrite_of_region v ha hr, State.writeRegion, State.writeOperand, hbusy,
      Bool.false_eq_true, if_false]
  · simp only [State.hostWrite_of_region v ha hr, State.writeRegion, State.writeOperand, hbusy,
      Bool.false_eq_true, if_false]
  · simp only [State.hostWrite_of_region v ha hr, State.writeRegion, State.writeMatrix, hbusy,
      hunlocked, Bool.false_eq_true, if_false]

/-- While busy a presented word is rejected with BUSY, whatever it is (40_compressor.md R111). -/
theorem State.present_busy {s : State} (h : s.pending ≠ none) (c : Word) :
    s.present c = s.raise .busy (c.extractLsb' 0 32) := by
  simp only [State.present, State.presentError, State.busy_of_pending h, if_true]

theorem State.readByte_storeWord (s : State) (a : Nat) (v : Word) {j : Nat} (hj : j < 8) :
    (s.storeWord a v).readByte (a + j) = byteOf v j := by
  rw [State.storeWord, State.readByte_storeBytes, le64_length, if_pos (by omega),
    Nat.add_sub_cancel_left, le64_getD, if_pos hj]

theorem State.readByte_storeWord_of_outside (s : State) (a : Nat) (v : Word) {x : Nat}
    (h : x < a ∨ a + 8 ≤ x) : (s.storeWord a v).readByte x = s.readByte x :=
  State.readByte_storeBytes_of_outside s a (le64 v) x (by rwa [le64_length])

/-- A store changes the memory alone. -/
theorem State.storeWord_frame (s : State) (a : Nat) (v : Word) :
    { s.storeWord a v with mem := s.mem } = s := rfl

/-- A word stored at an entry of the matrix sets that entry. -/
theorem State.matEntry_storeWord (s : State) (v : Word) (k i : Nat) :
    (s.storeWord (matBase + 8 * (k * s.params.m + i)) v).matEntry k i = v :=
  s.loadWord_storeWord _ v

/-- A word stored at an entry of the matrix sets no other entry. -/
theorem State.matEntry_storeWord_of_ne (s : State) (v : Word) {k i k' i' : Nat}
    (hi : i < s.params.m) (hi' : i' < s.params.m) (hne : (k', i') ≠ (k, i)) :
    (s.storeWord (matBase + 8 * (k * s.params.m + i)) v).matEntry k' i' = s.matEntry k' i' := by
  have hindex : k' * s.params.m + i' ≠ k * s.params.m + i :=
    fun heq => hne (matIndex_inj hi hi' heq)
  refine State.loadWord_congr fun j hj => s.readByte_storeWord_of_outside _ v ?_
  change matBase + 8 * (k' * s.params.m + i') + j < _ ∨ _ ≤ matBase + 8 * (k' * s.params.m + i') + j
  omega

theorem State.matBit_bundle (s : State) (k i : Nat) {r : Nat} (hr : r < 64) :
    s.matBit (64 * k + r) i = (s.matEntry k i).getLsbD r := by
  rw [State.matBit, Nat.mul_add_div (by decide), Nat.div_eq_of_lt hr, Nat.add_zero,
    Nat.mul_add_mod, Nat.mod_eq_of_lt hr]

/-! ### The decoder's commands (30_encoding.md R90 to R93) -/

theorem word_eq_fields (c : Word) :
    c = rsv1Field c ++ lenField c ++ rsv0Field c ++ opField c := by
  apply BitVec.eq_of_getLsbD_eq
  intro i hi
  simp only [rsv1Field, lenField, rsv0Field, opField, BitVec.getLsbD_append,
    BitVec.getLsbD_extractLsb']
  grind

theorem commandOfOp_fields {op : BitVec 8} {len : BitVec 16} {i : Instr}
    (h : commandOfOp op len = some i) :
    op = opcodeOf i ∧ lenOf i = if op = opHwrite then len else 0 := by
  unfold commandOfOp at h
  split_ifs at h
  all_goals
    cases h
    subst op
    exact ⟨rfl, rfl⟩

/-- A word that decodes is the encoding of its command. -/
theorem eq_encodeWord_of_decodeWord {c : Word} {i : Instr} (h : decodeWord c = .ok i) :
    c = encodeWord i := by
  unfold decodeWord at h
  split at h
  · cases h
  · next j hcommand =>
    split_ifs at h with hclear
    cases h
    obtain ⟨hop, hlen⟩ := commandOfOp_fields hcommand
    simp only [reservedClear, Bool.and_eq_true, Bool.or_eq_true, beq_iff_eq] at hclear
    obtain ⟨⟨hrsv0, hrsv1⟩, hlenClear⟩ := hclear
    have hlenField : lenField c = lenOf i := by
      rw [hlen]
      split_ifs with hw
      · rfl
      · exact hlenClear.resolve_left hw
    rw [word_eq_fields c, hrsv1, hlenField, hrsv0, hop, encodeWord]

/-! ### What keeps the matrix (20_memory.md R72, R77) -/

/-- `t` has the lock, the lookup table and the matrix of `s`. -/
structure keepsMatrix (s t : State) : Prop where
  locked_eq : t.locked = s.locked
  lut_eq : t.lut = s.lut
  byte_eq : ∀ a, matBase ≤ a → t.readByte a = s.readByte a

theorem keepsMatrix.of_registers {s t : State} (hlocked : t.locked = s.locked)
    (hlut : t.lut = s.lut) (hmem : t.mem = s.mem) (hresets : t.hardResets = s.hardResets) :
    keepsMatrix s t :=
  ⟨hlocked, hlut, fun a _ => State.readByte_congr hmem hresets a⟩

theorem State.accessError_keepsMatrix (s : State) (e : ErrorCode) (off : Offset) :
    keepsMatrix s (s.accessError e off) :=
  .of_registers (s.accessError_locked e off) (s.accessError_lut e off) (s.accessError_mem e off)
    (s.accessError_hardResets e off)

theorem State.hostRead_keepsMatrix (s : State) (off : Offset) (size : Nat) :
    keepsMatrix s (s.hostRead off size) := by
  rcases s.hostRead_cases off size with ⟨e, -, heq⟩ | heq | ⟨d, heq⟩ <;> rw [heq]
  · exact s.accessError_keepsMatrix e off
  · exact .of_registers rfl rfl rfl rfl
  · exact .of_registers rfl rfl rfl rfl

theorem State.present_keepsMatrix (s : State) (c : Word) : keepsMatrix s (s.present c) := by
  rcases s.present_cases c with ⟨e, -, -, heq⟩ | ⟨-, -, heq⟩ <;> rw [heq]
  · exact .of_registers (s.raise_locked e _) (s.raise_lut e _) (s.raise_mem e _)
      (s.raise_hardResets e _)
  · exact .of_registers rfl rfl rfl rfl

/-- A word stored in IN or SALT lies below MAT. -/
theorem State.storeWord_keepsMatrix (s : State) {a : Nat} (v : Word) (ha : a % 8 = 0)
    (hr : s.params.region a = some .inp ∨ s.params.region a = some .salt) :
    keepsMatrix s (s.storeWord a v) := by
  have hbelow : a + 8 ≤ matBase := by
    have hinp := params_inputLen_high s.params
    have hsalt := params_blockSize_high s.params
    rcases hr with hr | hr
    · have := region_inp hr
      simp only [inBase, matBase] at this ⊢
      omega
    · have := region_salt hr
      simp only [saltBase, matBase] at this ⊢
      omega
  exact ⟨rfl, rfl, fun x hx => s.readByte_storeWord_of_outside a v (by omega)⟩

/-- While locked, a write keeps the matrix, the table and the lock unless it is a soft reset. -/
theorem State.hostWrite_locked {s : State} (hlocked : s.locked = true) (off : Offset) (size : Nat)
    (v : Word) :
    (size = 8 ∧ off = 0x010 ∧ v.getLsbD 8 = true) ∨ keepsMatrix s (s.hostWrite off size v) := by
  rcases s.hostWrite_cases off size v with ⟨e, -, heq⟩ | ⟨hsize, hoff, heq⟩ | ⟨-, -, heq⟩
    | ⟨-, -, heq⟩ | ⟨-, ha, -, hr, heq⟩ <;> rw [heq]
  case inl => exact .inr (s.accessError_keepsMatrix e off)
  case inr.inl =>
    rcases s.writeCtrl_cases v with ⟨hsrst, -⟩ | ⟨-, hctrl⟩
    · exact .inl ⟨hsize, hoff, hsrst⟩
    · rw [hctrl]
      exact .inr (.of_registers rfl rfl rfl rfl)
  case inr.inr.inl =>
    rw [State.writeStatus_eq]
    exact .inr (.of_registers rfl rfl rfl rfl)
  case inr.inr.inr.inl =>
    obtain ⟨hlock, hlut, hbyte⟩ := s.present_keepsMatrix v
    exact .inr ⟨hlock, hlut, hbyte⟩
  case inr.inr.inr.inr =>
    have hr' : s.params.region off.toNat = some .inp ∨ s.params.region off.toNat = some .salt := by
      simpa [hlocked] using hr
    obtain ⟨hlock, hlut, hbyte⟩ := s.storeWord_keepsMatrix v ha hr'
    exact .inr ⟨hlock, hlut, hbyte⟩

/-! ### The completions (40_compressor.md R110, R120) -/

/-- No command but COMMIT changes the lock or the lookup table. -/
theorem exec_locked_lut {i : Instr} {s t : State} (h : exec i s = .next t) :
    (t.locked = s.locked ∧ t.lut = s.lut) ∨ i = .commit := by
  cases i
  case commit => exact .inr rfl
  all_goals
    cases h
    exact .inl ⟨rfl, rfl⟩

theorem exec_commit_locked {s t : State} (h : exec .commit s = .next t) : t.locked = true := by
  cases h
  rfl

/-- A completion keeps a locked matrix. -/
theorem exec_locked_matrix {i : Instr} {s t : State} (h : exec i s = .next t)
    (hlocked : s.locked = true) :
    t.locked = true ∧ ∀ a, matBase ≤ a → t.readByte a = s.readByte a := by
  refine ⟨?lock, fun a ha => exec_readByte h (.inr ?above)⟩
  case lock =>
    rcases exec_locked_lut h with ⟨hlock, -⟩ | rfl
    · exact hlock.trans hlocked
    · exact exec_commit_locked h
  case above =>
    have hmax := params_outputLen_high s.params
    simp only [outBase, matBase] at ha ⊢
    omega

/-! ### The statements -/

/-- Settles O12: the first check of either access fails. -/
theorem narrowOrMisalignedAccessRaisesBadAccess :
    Obligations.NarrowOrMisalignedAccessRaisesBadAccess := by
  intro s off size v hbad
  rw [s.hostRead_badAccess hbad, s.hostWrite_badAccess v hbad]
  exact ⟨rfl, s.answered_accessError .badAccess off⟩

/-- Settles O13: the gaps of the address map are its unmapped offsets. -/
theorem unmappedOffsetsRaiseBadAddress : Obligations.UnmappedOffsetsRaiseBadAddress := by
  intro s off v ha unmapped
  have hiff : s.params.region off.toNat = none ↔ unmapped := region_eq_none_iff _ _
  refine ⟨fun h => ?gap, fun h => ?mapped⟩
  case gap =>
    have hr := hiff.mpr h
    rw [State.hostRead_unmapped ha hr, State.hostWrite_unmapped v ha hr]
    exact ⟨rfl, s.answered_accessError .badAddress off⟩
  case mapped =>
    obtain ⟨r, hr⟩ := Option.ne_none_iff_exists'.mp (mt hiff.mp h)
    rw [State.hostRead_of_region ha hr]
    exact s.readRegion_response r off.toNat

/-- Settles O19: an answered read sets the response and the counter of unspecified reads at most,
and no read's data depends on them. -/
theorem successfulReadsHaveNoSideEffect : Obligations.SuccessfulReadsHaveNoSideEffect := by
  intro s off size d hok
  refine ⟨?frame, fun hidle => ?again⟩
  case frame =>
    rcases s.hostRead_cases off size with ⟨e, -, heq⟩ | heq | ⟨w, heq⟩
    · rw [heq, State.accessError_response] at hok
      cases hok
    · rw [heq]; rfl
    · rw [heq]; rfl
  case again =>
    obtain ⟨rfl, ha, r, hr⟩ := State.region_of_hostRead_okay hok
    have hread : s.hostRead off 8 = s.respondOkay (s.readData r off.toNat) := by
      rw [State.hostRead_of_region ha hr, State.readRegion_idle hidle]
    have hagain (w : Word) :
        (s.respondOkay w).hostRead off 8
          = (s.respondOkay w).respondOkay (s.readData r off.toNat) := by
      rw [State.hostRead_of_region (s := s.respondOkay w) ha hr,
        State.readRegion_idle (s := s.respondOkay w) hidle, State.readData_respondOkay]
    rw [hread] at hok ⊢
    rw [hagain]
    exact hok

/-- Settles O20: the read-only arms of the write rule. -/
theorem readOnlyOffsetsRefuseWrites : Obligations.ReadOnlyOffsetsRefuseWrites := by
  intro s off v ha hoff
  have hregion : ∃ r ∈ [Region.id, .param, .errcode, .count, .buflen, .out],
      s.params.region off.toNat = some r := by
    rcases hoff with rfl | rfl | rfl | rfl | rfl | hout
    · exact ⟨.id, by decide, region_register _ (by decide)⟩
    · exact ⟨.param, by decide, region_register _ (by decide)⟩
    · exact ⟨.errcode, by decide, region_register _ (by decide)⟩
    · exact ⟨.count, by decide, region_register _ (by decide)⟩
    · exact ⟨.buflen, by decide, region_register _ (by decide)⟩
    · exact ⟨.out, by decide, region_of_out hout⟩
  obtain ⟨r, hreadOnly, hr⟩ := hregion
  rw [State.hostWrite_of_region v ha hr, s.writeRegion_readOnly hreadOnly]
  exact s.answered_accessError .readOnly off

/-- Settles O21: an accepted write is one store of eight bytes. -/
theorem windowWritesReadBack : Obligations.WindowWritesReadBack := by
  intro s off v hidle ha hoff t
  have hregion : s.params.region off.toNat = some .inp ∨ s.params.region off.toNat = some .salt
      ∨ (s.params.region off.toNat = some .mat ∧ s.locked = false) := by
    rcases hoff with h | h | ⟨hlow, hhigh, hunlocked⟩
    · exact .inl (region_of_inp h)
    · exact .inr (.inl (region_of_salt h))
    · exact .inr (.inr ⟨region_of_mat ⟨hlow, hhigh⟩, hunlocked⟩)
  have ht : t = (s.storeWord off.toNat v).respondOkay 0 :=
    State.hostWrite_operand_idle v hidle ha hregion
  rw [ht]
  refine ⟨?read, fun j hj => ?written, fun a houtside => ?outside, ⟨0, ?frame⟩⟩
  case read =>
    have hoperand := hregion.imp_right (Or.imp_right And.left)
    rw [State.hostRead_operand (s := (s.storeWord off.toNat v).respondOkay 0) ha hoperand,
      State.respondOkay_response, State.loadWord_respondOkay, State.loadWord_storeWord]
  case written =>
    rw [State.readByte_respondOkay, s.readByte_storeWord _ v hj, byteOf]
  case outside =>
    rw [State.readByte_respondOkay, s.readByte_storeWord_of_outside _ v houtside]
  case frame => exact congrArg (State.respondOkay · 0) (s.storeWord_frame off.toNat v)

/-- Settles O22: the entry's word is read by the operand read and written by one store, and two
entries lie in different words. -/
theorem matrixWindowHoldsTheEntriesBundleByBundle :
    Obligations.MatrixWindowHoldsTheEntriesBundleByBundle := by
  intro s k i hk hi off
  have hoff : off.toNat = matBase + 8 * (k * s.params.m + i) := matOffset_toNat hk hi
  have hindex := matIndex_lt hk hi
  have ha : off.toNat % 8 = 0 := by
    have hbase : matBase % 8 = 0 := rfl
    omega
  have hr : s.params.region off.toNat = some .mat := region_of_mat (by omega)
  refine ⟨?read, fun r hrow => s.matBit_bundle k i hrow, fun hidle hunlocked v => ?write⟩
  case read =>
    rw [State.hostRead_operand ha (.inr (.inr hr)), hoff, State.respondOkay_response,
      State.matEntry, State.matWord]
  case write =>
    rw [State.hostWrite_operand_idle v hidle ha (.inr (.inr ⟨hr, hunlocked⟩)), hoff]
    refine ⟨?same, fun k' _ i' hi' hne => ?other⟩
    case same => rw [State.matEntry_respondOkay, State.matEntry_storeWord]
    case other => rw [State.matEntry_respondOkay, s.matEntry_storeWord_of_ne v hi hi' hne]

/-- Settles O23: the BUSY arms of the write rule, and the arms of CTRL and STATUS, which do not look
at BUSY. -/
theorem busyRefusesOperandsAndCommands : Obligations.BusyRefusesOperandsAndCommands := by
  intro s v hbusy
  have hctrl : s.hostWrite 0x010 8 v = (s.writeCtrl v).respondOkay 0 :=
    s.hostWrite_register (r := .ctrl) (by decide) v
  have hstatus : s.hostWrite 0x018 8 v = (s.writeStatus v).respondOkay 0 :=
    s.hostWrite_register (r := .status) (by decide) v
  refine ⟨fun off ha hoff => ?operand, ?command, ⟨0, hctrl ▸ rfl⟩, fun hsrst => ?enables,
    ⟨0, hstatus ▸ rfl⟩, ?done⟩
  case operand =>
    rw [State.hostWrite_operand_busy v hbusy ha (region_operand hoff)]
    exact s.answered_accessError .busy off
  case command =>
    rw [s.hostWrite_register (r := .cmd) (by decide), State.writeRegion, State.present_busy hbusy]
    exact State.answered_respondOkay _ 0
  case enables =>
    rw [hctrl, State.writeCtrl, if_neg (by rw [hsrst]; exact Bool.false_ne_true)]
    exact ⟨rfl, rfl⟩
  case done => rw [hstatus, State.writeStatus_eq, State.respondOkay_done]

/-- Settles O24: the LOCKED arm of the MAT write. -/
theorem lockedMatrixRefusesWrites : Obligations.LockedMatrixRefusesWrites := by
  intro s off v hidle hlocked ha hoff
  rw [State.hostWrite_matrix_locked v hidle hlocked ha (region_of_mat hoff)]
  exact s.answered_accessError .locked off

/-- Settles O25: each kind of step keeps a locked matrix, or is a reset; the table is built again
only by a COMMIT. -/
theorem matrixIsFrozenUntilReset : Obligations.MatrixIsFrozenUntilReset := by
  intro s t hlocked hstep
  obtain ⟨u, hu, hcases⟩ := step_cases hstep
  have hul : u.locked = true := by rw [hu]; exact hlocked
  have hlut : u.lut = s.lut := by rw [hu]
  have hpending : u.pending = s.pending := by rw [hu]
  have hbyte (a : Nat) : u.readByte a = s.readByte a :=
    State.readByte_congr (by rw [hu]) (by rw [hu]) a
  have hkeep (h : keepsMatrix u t) : t.locked = true ∧
      (∀ a, 0x8000000 ≤ a → t.readByte a = s.readByte a) ∧
      (s.pending ≠ some (encodeWord .commit) → t.lut = s.lut) :=
    ⟨h.locked_eq.trans hul, fun a ha => (h.byte_eq a ha).trans (hbyte a),
      fun _ => h.lut_eq.trans hlut⟩
  rcases hcases with rfl | ⟨off, size, rfl⟩ | ⟨addr, size, off, v, es, he, ho, rfl⟩
    | ⟨es, he, rfl⟩ | ⟨c, i, hp, hd, hexec⟩
  · exact .inr (hkeep (.of_registers rfl rfl rfl rfl))
  · exact .inr (hkeep (u.hostRead_keepsMatrix off size))
  · rcases State.hostWrite_locked hul off size v with ⟨rfl, rfl, hsrst⟩ | h
    · exact .inl ⟨es, .inr ⟨addr, v, he, ho, hsrst⟩⟩
    · exact .inr (hkeep h)
  · exact .inl ⟨es, .inl he⟩
  · obtain ⟨htl, hmatrix⟩ := exec_locked_matrix hexec hul
    refine .inr ⟨htl, fun a ha => (hmatrix a ha).trans (hbyte a), fun hcommit => ?_⟩
    rcases exec_locked_lut hexec with ⟨-, htable⟩ | rfl
    · exact htable.trans hlut
    · rw [← hpending, hp, eq_encodeWord_of_decodeWord hd] at hcommit
      exact absurd rfl hcommit

/-- Settles O36: what a completion can write, and COMMIT's lock. -/
theorem engineNeverWritesOperandArrays : Obligations.EngineNeverWritesOperandArrays := by
  intro i s t h
  obtain ⟨t', ht', hframe, -⟩ := exec_cases i s
  rw [h] at ht'
  cases ht'
  refine ⟨fun a ha => exec_readByte h ha, ?_, ?_, ?_, ?_, ?_, ?_, ?_, ?_, ?_, ?_, ?_,
    (exec_locked_lut h).imp_left And.left⟩
  all_goals rw [hframe]

end Sys2Proof.Machine
end

section
/-! SUPPORT. The command decoder and encoder (30_encoding.md R90 to R95): decoding a word takes back
its encoding and nothing else, and a word that is no command has a reserved opcode or field. -/

namespace Sys2Proof.Machine

/-! ### Eight bytes and their word (00_scope.md R7, 30_encoding.md R95) -/

/-- The other direction of `u64_le64`: a string of eight bytes is given by its word. -/
theorem le64_u64 {bs : List Byte} (h : bs.length = 8) : le64 (u64 bs) = bs := by
  refine List.ext_getElem (by rw [le64_length, h]) fun t ht htbs => ?_
  have hbyte : byteOf (u64 bs) t = bs.getD t 0 :=
    byteOf_wordOf (fun t => bs.getD t 0) (by rwa [le64_length] at ht)
  simp only [le64, List.getElem_map, List.getElem_range, hbyte]
  exact List.getD_eq_getElem bs 0 htbs

/-! ### The opcode map (30_encoding.md R91, R94) -/

theorem commandOfOp_opcodeOf (i : Instr) : commandOfOp (opcodeOf i) (lenOf i) = some i := by
  cases i <;> rfl

/-- The opcodes without a command are those from 6 on. -/
theorem commandOfOp_eq_none_iff (op : BitVec 8) (len : BitVec 16) :
    commandOfOp op len = none ↔ 6 ≤ op.toNat := by
  unfold commandOfOp
  split_ifs
  case neg => simp only [true_iff]; bv_omega
  all_goals
    subst op
    simp

/-! ### The fields of a command word (30_encoding.md R90, R93) -/

theorem encodeWord_fields (i : Instr) : Laws.EncodedFields.Statement i := by
  cases i with
  | nop => exact Laws.EncodedFields.nop
  | commit => exact Laws.EncodedFields.commit
  | compress => exact Laws.EncodedFields.compress
  | hreset => exact Laws.EncodedFields.hreset
  | hwrite len => exact Laws.EncodedFields.hwrite len
  | hsum => exact Laws.EncodedFields.hsum

theorem reservedClear_iff (c : Word) :
    reservedClear c = true ↔
      rsv0Field c = 0 ∧ rsv1Field c = 0 ∧ (opField c = opHwrite ∨ lenField c = 0) := by
  simp only [reservedClear, Bool.and_eq_true, Bool.or_eq_true, beq_iff_eq, and_assoc]

/-- Only HWRITE has a length. -/
theorem opcodeOf_eq_opHwrite_or_lenOf_eq_zero (i : Instr) :
    opcodeOf i = opHwrite ∨ lenOf i = 0 := by
  cases i with
  | hwrite len => exact .inl rfl
  | _ => exact .inr rfl

theorem reservedClear_encodeWord (i : Instr) : reservedClear (encodeWord i) = true := by
  obtain ⟨hop, hlen, hrsv0, hrsv1⟩ := encodeWord_fields i
  rw [reservedClear_iff, hop, hlen]
  exact ⟨hrsv0, hrsv1, opcodeOf_eq_opHwrite_or_lenOf_eq_zero i⟩

/-! ### Decoding a word (30_encoding.md R91, R93, R94) -/

theorem decodeWord_of_reserved_opcode {c : Word} (h : 6 ≤ (opField c).toNat) :
    decodeWord c = .error .illegalOpcode := by
  simp only [decodeWord, (commandOfOp_eq_none_iff _ _).mpr h]

/-- A word with a command's opcode is that command, unless a reserved field is set. -/
theorem decodeWord_of_opcode {c : Word} {i : Instr}
    (h : commandOfOp (opField c) (lenField c) = some i) :
    decodeWord c = if reservedClear c then .ok i else .error .reservedField := by
  simp only [decodeWord, h]

theorem decodeWord_of_reserved_field {c : Word} (hop : (opField c).toNat < 6)
    (h : ¬ reservedClear c = true) : decodeWord c = .error .reservedField := by
  cases hcommand : commandOfOp (opField c) (lenField c) with
  | none => exact absurd ((commandOfOp_eq_none_iff _ _).mp hcommand) (by omega)
  | some i => rw [decodeWord_of_opcode hcommand, if_neg h]

/-- A word without reserved parts decodes, and its command has the word's opcode and length. -/
theorem decodeWord_of_reservedClear {c : Word} (hop : (opField c).toNat < 6)
    (h : reservedClear c = true) :
    ∃ i, decodeWord c = .ok i ∧ opcodeOf i = opField c ∧ lenOf i = lenField c := by
  cases hcommand : commandOfOp (opField c) (lenField c) with
  | none => exact absurd ((commandOfOp_eq_none_iff _ _).mp hcommand) (by omega)
  | some i =>
    have hdecode : decodeWord c = .ok i := by rw [decodeWord_of_opcode hcommand, if_pos h]
    obtain ⟨hopcode, hlen, -⟩ := encodeWord_fields i
    rw [← eq_encodeWord_of_decodeWord hdecode] at hopcode hlen
    exact ⟨i, hdecode, hopcode.symm, hlen.symm⟩

theorem decodeWord_encodeWord (i : Instr) : decodeWord (encodeWord i) = .ok i := by
  obtain ⟨hop, hlen, -⟩ := encodeWord_fields i
  have hcommand : commandOfOp (opField (encodeWord i)) (lenField (encodeWord i)) = some i := by
    rw [hop, hlen, commandOfOp_opcodeOf]
  rw [decodeWord_of_opcode hcommand, if_pos (reservedClear_encodeWord i)]

/-! ### Decoding a string of bytes (30_encoding.md R95) -/

/-- The strings that decode are the eight-byte ones whose word does. -/
theorem decode_eq_ok_iff (bs : List Byte) (i : Instr) :
    decode bs = .ok i ↔ bs.length = 8 ∧ decodeWord (u64 bs) = .ok i := by
  unfold decode
  by_cases hlen : bs.length = 8
  · cases hword : decodeWord (u64 bs) <;> simp [hlen]
  · simp [hlen]

/-! ### The statements -/

/-- Settles O1: the eight bytes hold the command's word, whose fields are the command's opcode and
length with the reserved ones clear. -/
theorem decodeOfEncodeIsTheCommand : Obligations.DecodeOfEncodeIsTheCommand := by
  intro i
  rw [decode_eq_ok_iff, encode, u64_le64]
  exact ⟨le64_length _, decodeWord_encodeWord i⟩

/-- Settles O2: eight bytes are given by their word, and a word that decodes is its command's. -/
theorem decodeAcceptsOnlyEncodings : Obligations.DecodeAcceptsOnlyEncodings := by
  intro bs i h
  obtain ⟨hlen, hword⟩ := (decode_eq_ok_iff bs i).mp h
  rw [encode, ← eq_encodeWord_of_decodeWord hword, le64_u64 hlen]

/-- Settles O4: the opcode map leaves out the opcodes from 6 on, and the obligation's reserved
fields are those of `reservedClear`. -/
theorem wordsAreRefusedExactlyWhenReserved : Obligations.WordsAreRefusedExactlyWhenReserved := by
  intro c
  have hreserved : ¬ reservedClear c = true ↔
      (c.extractLsb' 8 8 ≠ 0 ∨ c.extractLsb' 32 32 ≠ 0
        ∨ (c.extractLsb' 0 8 ≠ 4 ∧ c.extractLsb' 16 16 ≠ 0)) := by
    rw [reservedClear_iff, not_and_or, not_and_or, not_or]
    rfl
  rw [← hreserved, not_not]
  exact ⟨decodeWord_of_reserved_opcode, decodeWord_of_reserved_field, decodeWord_of_reservedClear⟩

/-- Settles O3: six of the words are encodings, the seventh has a reserved opcode and the eighth a
reserved field. -/
theorem printedWordsDecodeToTheirCommands : Obligations.PrintedWordsDecodeToTheirCommands :=
  ⟨decodeWord_encodeWord .nop, decodeWord_encodeWord .commit, decodeWord_encodeWord .compress,
    decodeWord_encodeWord .hreset, decodeWord_encodeWord (.hwrite 17), decodeWord_encodeWord .hsum,
    decodeWord_of_reserved_opcode (by decide), decodeWord_of_reserved_field (by decide) (by decide)⟩

end Sys2Proof.Machine
end

section
/-! SUPPORT. The acceptance of a command (40_compressor.md R111), with its checks in one chain, and
the engine's turns (R110). -/

namespace Sys2Proof.Machine

/-! ### The acceptance checks as one chain (40_compressor.md R111) -/

/-- The checks of a decoded command by its opcode: 1 is COMMIT, 2, 4 and 5 are COMPRESS, HWRITE and
HSUM. -/
theorem commandError_eq (p : Params) (l : Bool) (i : Instr) :
    commandError p l i =
      if (opcodeOf i).toNat = 1 ∧ l = true then some .locked
      else if ((opcodeOf i).toNat = 2 ∨ (opcodeOf i).toNat = 4 ∨ (opcodeOf i).toNat = 5) ∧ l = false
        then some .notLocked
      else if (opcodeOf i).toNat = 4 ∧ p.m / 8 < (lenOf i).toNat then some .badLen
      else none := by
  cases i with
  | hwrite len =>
    by_cases hlen : len.toNat ≤ p.m / 8 <;> cases l <;>
      simp [commandError, lockError, Instr.wellFormed, Params.lenFits, Params.inputLen, opcodeOf,
        lenOf, hlen]
  | _ => cases l <;> rfl

/-- The reserved-field check, with opcode and length as numbers (30_encoding.md R93). -/
theorem not_reservedClear_iff (c : Word) :
    ¬ reservedClear c = true ↔
      (rsv0Field c ≠ 0 ∨ rsv1Field c ≠ 0 ∨ ((opField c).toNat ≠ 4 ∧ (lenField c).toNat ≠ 0)) := by
  have hop : opField c = opHwrite ↔ (opField c).toNat = 4 := BitVec.toNat_inj.symm
  have hlen : lenField c = 0 ↔ (lenField c).toNat = 0 := BitVec.toNat_inj.symm
  rw [reservedClear_iff, not_and_or, not_and_or, not_or, hop, hlen]

/-- The checks that do not look at BUSY, in the order of R111. -/
theorem wordError_eq (p : Params) (l : Bool) (c : Word) :
    wordError p l c =
      if 6 ≤ (opField c).toNat then some .illegalOpcode
      else if rsv0Field c ≠ 0 ∨ rsv1Field c ≠ 0
          ∨ ((opField c).toNat ≠ 4 ∧ (lenField c).toNat ≠ 0) then some .reservedField
      else if (opField c).toNat = 1 ∧ l = true then some .locked
      else if ((opField c).toNat = 2 ∨ (opField c).toNat = 4 ∨ (opField c).toNat = 5) ∧ l = false
        then some .notLocked
      else if (opField c).toNat = 4 ∧ p.m / 8 < (lenField c).toNat then some .badLen
      else none := by
  have hreserved := not_reservedClear_iff c
  by_cases hop : 6 ≤ (opField c).toNat
  · simp only [wordError, decodeWord_of_reserved_opcode hop, codeOfCommandError, if_pos hop]
  rw [if_neg hop]
  by_cases hclear : reservedClear c = true
  · obtain ⟨i, hdecode, hopcode, hlen⟩ := decodeWord_of_reservedClear (Nat.lt_of_not_le hop) hclear
    rw [if_neg (mt hreserved.mpr (not_not.mpr hclear))]
    simp only [wordError, hdecode, commandError_eq, hopcode, hlen]
  · rw [if_pos (hreserved.mp hclear)]
    simp only [wordError, decodeWord_of_reserved_field (Nat.lt_of_not_le hop) hclear,
      codeOfCommandError]

theorem State.presentError_eq (s : State) (c : Word) :
    s.presentError c
      = if s.pending ≠ none then some .busy else wordError s.params s.locked c := by
  by_cases hidle : s.pending = none
  · rw [State.presentError, State.busy_of_idle hidle, if_neg Bool.false_ne_true,
      if_neg (not_not.mpr hidle)]
  · rw [State.presentError, State.busy_of_pending hidle, if_pos rfl, if_pos hidle]

/-- What becomes of a presented word, by the first check that fails. -/
def State.presentOutcome (s : State) (c : Word) : Option ErrorCode → State
  | some e => s.raise e (c.extractLsb' 0 32)
  | none => { s with pending := some c }

theorem State.present_eq_presentOutcome (s : State) (c : Word) :
    s.present c = s.presentOutcome c (s.presentError c) := by
  unfold State.present State.presentOutcome
  cases s.presentError c <;> rfl

/-! ### The engine's turns (40_compressor.md R110) -/

theorem State.fetch_of_pending {s : State} {c : Word} {i : Instr} (hp : s.pending = some c)
    (hd : decodeWord c = .ok i) : s.fetch = .run i s := by
  simp only [State.fetch, hp, hd]

theorem step_of_run {s t : State} {i : Instr} (h : s.nextMove = .run i t) :
    step s = exec i t := by
  simp only [step, h]

/-! ### The statements -/

/-- Settles O5: BUSY comes first, the other checks are those of `wordError`, and what is raised
changes the error record alone. -/
theorem acceptanceChecksRunInOrder : Obligations.AcceptanceChecksRunInOrder := by
  intro s c op len reject
  refine ⟨?chain, fun e => s.raise_frame e _⟩
  case chain =>
    rw [s.hostWrite_register (r := .cmd) (by decide), State.writeRegion]
    refine ⟨0, congrArg (State.respondOkay · 0) ?_⟩
    rw [State.present_eq_presentOutcome, State.presentError_eq, wordError_eq]
    simp only [apply_ite (s.presentOutcome c)]
    rfl

/-- Settles O52: the engine's turn is its fetch, and what it fetches is the pending command. -/
theorem stepRunsThePendingCommand : Obligations.StepRunsThePendingCommand := by
  intro s c i hp hd
  refine ⟨fun he => ?idle, fun es he => ?turn⟩
  case idle =>
    exact step_of_run ((State.nextMove_of_no_event he).trans (State.fetch_of_pending hp hd))
  case turn =>
    exact step_of_run ((State.nextMove_of_event he).trans
      (State.fetch_of_pending (s := { s with events := es }) hp hd))

end Sys2Proof.Machine
end

section
/-! SUPPORT. The compression function (40_compressor.md R112 to R122): its two datapaths compute one
subset sum, that sum's laws, and the completions of NOP, COMMIT and COMPRESS. -/

namespace Sys2Proof.Machine

/-! ### Sums of selected terms (00_scope.md R8) -/

/-- The sum of the terms that `p` selects, as natural numbers modulo 2^64. -/
theorem sigma64_selected_toNat (n : Nat) (p : Nat → Bool) (f : Nat → Word) :
    (sigma64 n fun i => if p i then f i else 0).toNat
      = (∑ i ∈ (Finset.range n).filter (fun i => p i), (f i).toNat) % 2 ^ 64 := by
  rw [sigma64_toNat, Finset.sum_filter]
  congr 1
  refine Finset.sum_congr rfl fun i _ => ?_
  split <;> rfl

/-- Each selected term of `2^64 − 1` takes 1 away, modulo 2^64. -/
theorem sigma64_selected_allOnes (n : Nat) (p : Nat → Bool) :
    (sigma64 n fun i => if p i then BitVec.allOnes 64 else 0)
      = 0 - BitVec.ofNat 64 ((Finset.range n).filter (fun i => p i)).card := by
  induction n with
  | zero => simp [sigma64]
  | succ n ih =>
    rw [sigma64, ih, Finset.range_add_one, Finset.filter_insert]
    split
    · rw [Finset.card_insert_of_notMem (by simp), BitVec.ofNat_add, ← BitVec.neg_one_eq_allOnes]
      bv_omega
    · exact BitVec.add_zero _

/-! ### The bits of an input (00_scope.md R7) -/

theorem bitOf_replicate_zero (l i : Nat) : bitOf (List.replicate l 0) i = false := by
  have hbyte : (List.replicate l (0 : Byte)).getD (i / 8) 0 = 0 := by
    rw [List.getD_eq_getElem?_getD, List.getElem?_getD_replicate_default_eq]
  rw [bitOf, hbyte, BitVec.ofNat_eq_ofNat, BitVec.getLsbD_zero]

theorem bitOf_zipWith_xor {x y : List Byte} (h : x.length = y.length) (i : Nat) :
    bitOf (List.zipWith (· ^^^ ·) x y) i = (bitOf x i ^^ bitOf y i) := by
  have hbyte : (List.zipWith (· ^^^ ·) x y).getD (i / 8) 0
      = x.getD (i / 8) 0 ^^^ y.getD (i / 8) 0 := by
    by_cases hi : i / 8 < y.length
    · simp [List.getD_eq_getElem?_getD, h, hi]
    · simp [List.getD_eq_getElem?_getD, h, hi]
  rw [bitOf, hbyte, BitVec.getLsbD_xor, bitOf, bitOf]

/-- A bit of `IN` is a bit of its byte in the window (10_state.md R30). -/
theorem State.bitOf_inBytes (s : State) {i : Nat} (hi : i < s.params.m) :
    bitOf s.inBytes i = (s.readByte (inBase + i / 8)).getLsbD (i % 8) := by
  have hbyte : i / 8 < s.params.inputLen := by
    have := s.params.m_mod
    simp only [Params.inputLen]
    omega
  rw [bitOf, State.inBytes, State.readBytes_getD, if_pos hbyte]

theorem lowNibble_testBit (x : List Byte) (j : Nat) {b : Nat} (hb : b < 4) :
    (lowNibble x j).testBit b = bitOf x (8 * j + b) := by
  have hdiv : (8 * j + b) / 8 = j := by omega
  have hmod : (8 * j + b) % 8 = b := by omega
  rw [lowNibble, BitVec.testBit_toNat, BitVec.getLsbD_extractLsb', bitOf, hdiv, hmod]
  simp [hb]

theorem highNibble_testBit (x : List Byte) (j : Nat) {b : Nat} (hb : b < 4) :
    (highNibble x j).testBit b = bitOf x (8 * j + 4 + b) := by
  have hdiv : (8 * j + 4 + b) / 8 = j := by omega
  have hmod : (8 * j + 4 + b) % 8 = 4 + b := by omega
  rw [highNibble, BitVec.testBit_toNat, BitVec.getLsbD_extractLsb', bitOf, hdiv, hmod]
  simp [hb]

/-! ### The lookup table (40_compressor.md R116, 10_state.md R33) -/

theorem params_lutSlots (p : Params) : p.lutSlots = 2 * (p.m / 8) := by
  have := p.m_mod
  simp only [Params.lutSlots]
  omega

/-- The place of a table word gives back its lane, slot and nibble. -/
theorem lutIndex_decompose (p : Params) (k : Nat) {c v : Nat} (hc : c < p.lutSlots) (hv : v < 16) :
    lutIndex p k c v / 16 / p.lutSlots = k ∧ lutIndex p k c v / 16 % p.lutSlots = c
      ∧ lutIndex p k c v % 16 = v := by
  have hpair : lutIndex p k c v / 16 = p.lutSlots * k + c := by
    rw [lutIndex, Nat.mul_comm k]
    omega
  have hslots : 0 < p.lutSlots := by omega
  rw [hpair, Nat.mul_add_div hslots, Nat.div_eq_of_lt hc, Nat.mul_add_mod, Nat.mod_eq_of_lt hc]
  refine ⟨rfl, rfl, ?_⟩
  rw [lutIndex]
  omega

theorem lutIndex_lt {p : Params} {k c v : Nat} (hk : k < p.n) (hc : c < p.lutSlots) (hv : v < 16) :
    lutIndex p k c v < p.lutWords := by
  have hpair : k * p.lutSlots + c < p.n * p.lutSlots :=
    calc k * p.lutSlots + c < k * p.lutSlots + p.lutSlots := by omega
      _ = (k + 1) * p.lutSlots := (Nat.succ_mul k _).symm
      _ ≤ p.n * p.lutSlots := Nat.mul_le_mul_right _ hk
  simp only [lutIndex, Params.lutWords]
  omega

/-- The table that was built from the present matrix holds the nibble sums. -/
theorem State.lutEntry_eq_nibbleSum {s : State} (hl : s.lut = s.buildLut) {k c v : Nat}
    (hk : k < s.params.n) (hc : c < s.params.lutSlots) (hv : v < 16) :
    s.lutEntry k c v = s.nibbleSum k c v := by
  obtain ⟨hlane, hslot, hnibble⟩ := lutIndex_decompose s.params k hc hv
  have hword : s.lut[lutIndex s.params k c v]? = some (s.nibbleSum k c v) := by
    rw [hl, State.buildLut, List.getElem?_map, List.getElem?_range (lutIndex_lt hk hc hv),
      Option.map_some, hlane, hslot, hnibble]
  simp only [State.lutEntry, hword]

/-- A nibble sum names its matrix entries by their offsets in the window (20_memory.md R63). -/
theorem State.nibbleSum_toNat (s : State) (k j h v : Nat) :
    (s.nibbleSum k (2 * j + h) v).toNat
      = (∑ b ∈ (Finset.range 4).filter (fun b => v.testBit b),
          (s.loadWord (matBase + 8 * (k * s.params.m + (8 * j + 4 * h + b)))).toNat) % 2 ^ 64 := by
  rw [State.nibbleSum, sigma64_selected_toNat]
  have hcolumn (b : Nat) : 4 * (2 * j + h) + b = 8 * j + 4 * h + b := by omega
  simp only [hcolumn, State.matEntry, State.matWord]

/-! ### The two datapaths (40_compressor.md R113, R117, R118) -/

theorem State.nibbleSum_of_bits (s : State) (x : List Byte) (k c : Nat) {v : Nat}
    (hv : ∀ b < 4, v.testBit b = bitOf x (4 * c + b)) :
    s.nibbleSum k c v
      = sigma64 4 fun b => if bitOf x (4 * c + b) then s.matEntry k (4 * c + b) else 0 :=
  sigma64_congr fun b hb => by rw [hv b hb]

/-- The matrix sum, byte by byte of the input: each byte's two nibbles choose a sum of four entries
each. -/
theorem State.matSum_eq_nibbleSums (s : State) (x : List Byte) (k : Nat) :
    s.matSum x k = sigma64 (s.params.m / 8) fun j =>
      s.nibbleSum k (2 * j) (lowNibble x j) + s.nibbleSum k (2 * j + 1) (highNibble x j) := by
  have hm : s.params.m = 4 * (2 * (s.params.m / 8)) := by
    have := s.params.m_mod
    omega
  rw [State.matSum]
  conv_lhs => rw [hm]
  rw [sigma64_mul, sigma64_mul]
  refine sigma64_congr fun j _ => ?_
  have hlow (b : Nat) (hb : b < 4) : (lowNibble x j).testBit b = bitOf x (4 * (2 * j) + b) := by
    rw [lowNibble_testBit x j hb]
    congr 1
    omega
  have hhigh (b : Nat) (hb : b < 4) :
      (highNibble x j).testBit b = bitOf x (4 * (2 * j + 1) + b) := by
    rw [highNibble_testBit x j hb]
    congr 1
    omega
  rw [s.nibbleSum_of_bits x k _ hlow, s.nibbleSum_of_bits x k _ hhigh]
  exact congrArg (· + _) (BitVec.zero_add _)

theorem lowNibble_lt (x : List Byte) (j : Nat) : lowNibble x j < 16 := BitVec.isLt _

theorem highNibble_lt (x : List Byte) (j : Nat) : highNibble x j < 16 := BitVec.isLt _

/-- A lane of the compression function is the matrix sum, with either datapath. -/
theorem State.lutSum_eq_matSum {s : State} (hl : s.lut = s.buildLut) (x : List Byte) {k : Nat}
    (hk : k < s.params.n) : s.lutSum x k = s.matSum x k := by
  rw [State.matSum_eq_nibbleSums, State.lutSum]
  refine sigma64_congr fun j hj => ?_
  have hslots := params_lutSlots s.params
  rw [State.lutEntry_eq_nibbleSum hl hk (by omega) (lowNibble_lt x j),
    State.lutEntry_eq_nibbleSum hl hk (by omega) (highNibble_lt x j)]

theorem State.compressWord_eq_matSum {s : State} (hs : s.lutFresh) (x : List Byte) {k : Nat}
    (hk : k < s.params.n) : s.compressWord x k = s.matSum x k := by
  unfold State.compressWord
  split
  · next himpl => exact State.lutSum_eq_matSum (hs himpl) x hk
  · rfl

/-! ### The matrix sum (40_compressor.md R113, R115, R122) -/

theorem State.matSum_replicate_zero (s : State) (l k : Nat) : s.matSum (List.replicate l 0) k = 0 := by
  have hterm : ∀ i < s.params.m,
      (if bitOf (List.replicate l 0) i then s.matEntry k i else 0) = 0 := fun i _ => by
    rw [bitOf_replicate_zero, if_neg Bool.false_ne_true]
  exact (sigma64_congr hterm).trans (sigma64_zero _)

/-- The matrix sum of two inputs with no common bit is the sum of their matrix sums. -/
theorem State.matSum_xor (s : State) {x y : List Byte} (hlen : x.length = y.length)
    (hxy : ∀ i < s.params.m, ¬ (bitOf x i = true ∧ bitOf y i = true)) (k : Nat) :
    s.matSum (List.zipWith (· ^^^ ·) x y) k = s.matSum x k + s.matSum y k := by
  rw [State.matSum, State.matSum, State.matSum, ← sigma64_add]
  refine sigma64_congr fun i hi => ?_
  have hdisjoint := hxy i hi
  rw [bitOf_zipWith_xor hlen]
  cases hx : bitOf x i <;> cases hy : bitOf y i
  case true.true => exact absurd ⟨hx, hy⟩ hdisjoint
  all_goals simp

/-- The matrix sum of lane `k` reads the size and bundle `k`. -/
theorem State.matSum_eq_of_bundle {s t : State} (hm : t.params.m = s.params.m) {k : Nat}
    (hk : ∀ i < s.params.m, t.matEntry k i = s.matEntry k i) (x : List Byte) :
    t.matSum x k = s.matSum x k := by
  rw [State.matSum, State.matSum, hm]
  exact sigma64_congr fun i hi => by rw [hk i hi]

theorem State.matSum_allOnes {s : State} {k : Nat} {x : List Byte}
    (h : ∀ i < s.params.m, bitOf x i = true → s.matEntry k i = BitVec.allOnes 64) :
    s.matSum x k
      = 0 - BitVec.ofNat 64 ((Finset.range s.params.m).filter (fun i => bitOf x i)).card := by
  rw [← sigma64_selected_allOnes, State.matSum]
  refine sigma64_congr fun i hi => ?_
  split
  · next hbit => exact h i hi hbit
  · rfl

/-- The matrix sum of `IN`, at the offsets of `IN` and MAT in the window. -/
theorem State.matSum_inBytes_toNat (s : State) (k : Nat) :
    (s.matSum s.inBytes k).toNat
      = (∑ i ∈ (Finset.range s.params.m).filter
            (fun i => (s.readByte (inBase + i / 8)).getLsbD (i % 8)),
          (s.loadWord (matBase + 8 * (k * s.params.m + i))).toNat) % 2 ^ 64 := by
  rw [State.matSum, sigma64_selected_toNat]
  have hfilter : (Finset.range s.params.m).filter (fun i => bitOf s.inBytes i)
      = (Finset.range s.params.m).filter
          (fun i => (s.readByte (inBase + i / 8)).getLsbD (i % 8)) :=
    Finset.filter_congr fun i hi => by rw [s.bitOf_inBytes (Finset.mem_range.mp hi)]
  rw [hfilter]
  rfl

/-! ### Packed results (40_compressor.md R114) -/

theorem packWords_zero (n : Nat) : packWords n (fun _ => 0) = List.replicate (8 * n) 0 := by
  have hle : le64 0 = List.replicate 8 0 := by decide
  refine List.eq_replicate_iff.mpr ⟨packWords_length n _, fun b hb => ?_⟩
  obtain ⟨k, -, hbk⟩ := List.mem_flatMap.mp hb
  rw [hle] at hbk
  exact List.eq_of_mem_replicate hbk

theorem packWords_congr {n : Nat} {f g : Nat → Word} (h : ∀ k < n, f k = g k) :
    packWords n f = packWords n g :=
  List.flatMap_congr fun k hk => by rw [h k (List.mem_range.mp hk)]

/-! ### What is written to OUT (40_compressor.md R110, R121; 41_hash_pipeline.md R151) -/

theorem State.readByte_complete (s : State) (a : Nat) : s.complete.readByte a = s.readByte a :=
  State.readByte_congr s.complete_mem s.complete_hardResets a

/-- A command that writes a whole OUT changes no byte outside it, and nothing but memory, DONE and
`pending`. -/
theorem State.storeOut_complete_frame (s : State) {vs : List Byte}
    (hvs : vs.length = 8 * s.params.n) :
    (∀ a, a < outBase ∨ outBase + 8 * s.params.n ≤ a →
      (s.storeBytes outBase vs).complete.readByte a = s.readByte a) ∧
    { (s.storeBytes outBase vs).complete with mem := s.mem }
      = { s with pending := none, done := true } := by
  refine ⟨fun a ha => ?_, rfl⟩
  rw [State.readByte_complete]
  exact State.readByte_storeBytes_of_outside _ _ _ _ (by rwa [hvs])

/-- OUT word `k` of a compressed input (40_compressor.md R114). -/
theorem State.loadWord_compress (s : State) (x : List Byte) {k : Nat} (hk : k < s.params.n) :
    (s.storeBytes outBase (s.compress x)).complete.loadWord (outBase + 8 * k)
      = s.compressWord x k :=
  (State.loadWord_congr fun _ _ => State.readByte_complete _ _).trans
    (s.loadWord_packWords outBase s.params.n k _ hk)

/-! ### The statements -/

/-- Settles O37: the matrix sum, grouped by nibbles, is the sum of the table words that the nibbles
choose. -/
theorem tableDatapathEqualsMatrixDatapath : Obligations.TableDatapathEqualsMatrixDatapath :=
  fun _ hl x _ hk => State.lutSum_eq_matSum hl x hk

/-- Settles O38: both laws are those of the matrix sum, which either datapath computes. -/
theorem compressionAddsOverDisjointInputs : Obligations.CompressionAddsOverDisjointInputs := by
  intro s hs
  refine ⟨?zero, fun x y hx hy hxy k hk => ?add⟩
  case zero =>
    have hlane : ∀ k < s.params.n, s.compressWord (List.replicate (s.params.m / 8) 0) k = 0 :=
      fun k hk => by rw [State.compressWord_eq_matSum hs _ hk, State.matSum_replicate_zero]
    exact (packWords_congr hlane).trans (packWords_zero _)
  case add =>
    rw [State.compressWord_eq_matSum hs _ hk, State.compressWord_eq_matSum hs _ hk,
      State.compressWord_eq_matSum hs _ hk]
    exact s.matSum_xor (hx.trans hy.symm) hxy k

/-- Settles O39: either datapath computes the matrix sum, which reads bundle `k` alone. -/
theorem laneReadsOnlyItsBundle : Obligations.LaneReadsOnlyItsBundle := by
  intro s t hn hm hs ht k hk hbundle x
  rw [State.compressWord_eq_matSum ht x (hn ▸ hk), State.compressWord_eq_matSum hs x hk]
  exact State.matSum_eq_of_bundle hm hbundle x

/-- Settles O40: each selected entry takes 1 away from the matrix sum. -/
theorem allOnesEntriesWrapAround : Obligations.AllOnesEntriesWrapAround := by
  intro s hs k hk x hones
  rw [State.compressWord_eq_matSum hs x hk]
  exact State.matSum_allOnes hones

/-- Settles O30: NOP's arm completes and does nothing before. -/
theorem nopCompletesWithoutEffect : Obligations.NopCompletesWithoutEffect := fun _ => rfl

/-- Settles O31: after COMMIT the table is the one built from the matrix, which COMMIT leaves as it
is, so its entries are nibble sums. -/
theorem commitLocksAndBuildsTheTable : Obligations.CommitLocksAndBuildsTheTable := by
  intro s
  refine ⟨s.commitMatrix.complete, rfl, rfl, fun himpl => ?absent,
    fun himpl k hk j hj h hh v hv => ?entry⟩
  case absent => rw [State.complete_lut, State.commitMatrix_lut, himpl, if_neg Bool.false_ne_true]
  case entry =>
    have hentry : ∀ k i, s.commitMatrix.complete.matEntry k i = s.matEntry k i :=
      State.matEntry_eq_of_mem rfl rfl rfl
    have hbuild : s.commitMatrix.complete.buildLut = s.buildLut :=
      State.buildLut_congr rfl hentry
    have hfresh : s.commitMatrix.complete.lut = s.commitMatrix.complete.buildLut := by
      rw [hbuild, State.complete_lut, State.commitMatrix_lut, if_pos himpl]
    have hslot : 2 * j + h < s.params.lutSlots := by
      rw [params_lutSlots]
      omega
    rw [State.lutEntry_eq_nibbleSum hfresh hk hslot hv, State.nibbleSum_congr hentry]
    exact s.nibbleSum_toNat k j h v

/-- Settles O32: OUT word `k` is lane `k` of `C(IN)`, which is the matrix sum of IN. -/
theorem compressWritesTheSubsetSums : Obligations.CompressWritesTheSubsetSums := by
  intro s hs
  refine ⟨_, rfl, fun k hk => ?word, s.storeOut_complete_frame (s.compress_length s.inBytes)⟩
  case word =>
    have hword : (s.storeBytes outBase (s.compress s.inBytes)).complete.loadWord (0x1000 + 8 * k)
        = s.matSum s.inBytes k :=
      (s.loadWord_compress s.inBytes hk).trans (State.compressWord_eq_matSum hs _ hk)
    rw [hword]
    exact s.matSum_inBytes_toNat k

end Sys2Proof.Machine
end

section
/-! SUPPORT. The hash commands' completions (41_hash_pipeline.md R144 to R151): HWRITE's loop
absorbs the whole blocks of the message, and HSUM absorbs the one or two blocks of the padded buffer. -/

namespace Sys2Proof.Machine

/-! ### Blocks of a message (41_hash_pipeline.md R150) -/

/-- A block of a message is a block of every longer message. -/
theorem blockAt_append {b q : Nat} {p : List Byte} (h : (q + 1) * b ≤ p.length) (r : List Byte) :
    blockAt b (p ++ r) q = blockAt b p q := by
  rw [Nat.succ_mul] at h
  rw [blockAt, blockAt, List.drop_append_of_le_length (by omega),
    List.take_append_of_le_length (by rw [List.length_drop]; omega)]

/-- The last block of a message of whole blocks is what is left of it. -/
theorem blockAt_last {b q : Nat} {p : List Byte} (h : p.length = (q + 1) * b) :
    blockAt b p q = p.drop (q * b) := by
  rw [Nat.succ_mul] at h
  rw [blockAt, List.take_of_length_le (by rw [List.length_drop]; omega)]

/-- Bytes past the absorbed blocks play no part. -/
theorem State.absorbBlocks_append (s : State) (h p r : List Byte) {q : Nat}
    (hq : q * s.params.blockSize ≤ p.length) :
    s.absorbBlocks h (p ++ r) q = s.absorbBlocks h p q := by
  induction q with
  | zero => rfl
  | succ q ih =>
    have hle : q * s.params.blockSize ≤ p.length := by
      rw [Nat.succ_mul] at hq
      omega
    rw [State.absorbBlocks, State.absorbBlocks, ih hle, blockAt_append hq]

/-- `H` and `buf` after the whole blocks of a message: the blocks absorbed in order, and the rest. -/
def State.absorbMessage (s : State) (h msg : List Byte) : List Byte × List Byte :=
  (s.absorbBlocks h msg (msg.length / s.params.blockSize),
    msg.drop (msg.length / s.params.blockSize * s.params.blockSize))

theorem State.absorbMessage_short {s : State} {msg : List Byte}
    (hl : msg.length < s.params.blockSize) (h : List Byte) : s.absorbMessage h msg = (h, msg) := by
  rw [State.absorbMessage, Nat.div_eq_of_lt hl, Nat.zero_mul, List.drop_zero, State.absorbBlocks]

/-- One turn of HWRITE's loop is one more byte of the message. -/
theorem State.pushByte_absorbMessage (s : State) (h msg : List Byte) (v : Byte) :
    s.pushByte (s.absorbMessage h msg) v = s.absorbMessage h (msg ++ [v]) := by
  have hpos : 0 < s.params.blockSize := by
    have := params_blockSize_low s.params
    omega
  have hdiv := Nat.div_add_mod' msg.length s.params.blockSize
  have hmod := Nat.mod_lt msg.length hpos
  rw [State.absorbMessage]
  generalize msg.length / s.params.blockSize = q at hdiv ⊢
  have hle : q * s.params.blockSize ≤ msg.length := by omega
  have hlen : (msg ++ [v]).length = msg.length + 1 := by simp
  have hrest : msg.drop (q * s.params.blockSize) ++ [v]
      = (msg ++ [v]).drop (q * s.params.blockSize) := (List.drop_append_of_le_length hle).symm
  rcases s.pushByte_cases (s.absorbBlocks h msg q, msg.drop (q * s.params.blockSize)) v with
    ⟨hfull, heq⟩ | ⟨hpart, heq⟩ <;> rw [heq, hrest, State.absorbMessage]
  · have hwhole : (msg ++ [v]).length = (q + 1) * s.params.blockSize := by
      rw [List.length_drop] at hfull
      rw [hlen, Nat.succ_mul]
      omega
    rw [hwhole, Nat.mul_div_cancel _ hpos, ← hwhole, List.drop_length, State.absorbBlocks,
      blockAt_last hwhole, s.absorbBlocks_append h msg [v] hle]
  · have hsame : (msg ++ [v]).length / s.params.blockSize = q := by
      rw [List.length_drop] at hpart
      rw [hlen, Nat.div_eq_iff hpos]
      omega
    rw [hsame, s.absorbBlocks_append h msg [v] hle]

/-- HWRITE's loop over `vs` absorbs the message `buf ++ vs`. -/
theorem State.pushBytes_eq_absorbMessage {s : State} {buf : List Byte}
    (hbuf : buf.length < s.params.blockSize) (h vs : List Byte) :
    s.pushBytes (h, buf) vs = s.absorbMessage h (buf ++ vs) := by
  induction vs using List.reverseRecOn with
  | nil => rw [State.pushBytes_nil, List.append_nil, State.absorbMessage_short hbuf]
  | append_singleton vs v ih =>
    rw [State.pushBytes_append, ih, State.pushBytes_cons, State.pushBytes_nil,
      State.pushByte_absorbMessage, List.append_assoc]

/-- HWRITE's bytes are the first `len` of the window of `IN` (30_encoding.md R92). -/
theorem State.hwriteBytes_eq {s : State} {len : BitVec 16} (h : len.toNat ≤ s.params.inputLen) :
    s.hwriteBytes len = s.readBytes inBase len.toNat := by
  rw [State.hwriteBytes, State.inBytes, State.readBytes, ← List.map_take, List.take_range,
    Nat.min_eq_left h, State.readBytes]

/-! ### The padded buffer (41_hash_pipeline.md R148, R149) -/

theorem lengthField_eq (cnt : Word) :
    lengthField cnt = le64 (BitVec.ofNat 64 (cnt.toNat * 8)) ++ List.replicate 8 0 := by
  have hbits : cnt <<< 3 = BitVec.ofNat 64 (cnt.toNat * 8) := by
    apply BitVec.eq_of_toNat_eq
    rw [BitVec.toNat_shiftLeft, BitVec.toNat_ofNat, Nat.shiftLeft_eq]
  have hzero : le64 0 = List.replicate 8 0 := by decide
  rw [lengthField, hbits, hzero]

/-- The padding loop's count of zero bytes is that of R148. -/
theorem padCount_eq {b l : Nat} (hb : 16 ≤ b) (hl : l < b) :
    padCount b ((l + 1) % b) = (2 * b - 17 - l) % b := by
  by_cases hone : l + 17 ≤ b
  · rw [Nat.mod_eq_of_lt (show l + 1 < b by omega), padCount, if_pos (by omega),
      Nat.mod_eq_sub_mod (show b ≤ 2 * b - 17 - l by omega), Nat.mod_eq_of_lt (by omega)]
    omega
  · rw [Nat.mod_eq_of_lt (show 2 * b - 17 - l < b by omega)]
    by_cases hlast : l + 1 = b
    · rw [hlast, Nat.mod_self, padCount, if_pos (Nat.zero_le _)]
      omega
    · rw [Nat.mod_eq_of_lt (show l + 1 < b by omega), padCount, if_neg (by omega)]
      omega

theorem pad_eq {b : Nat} {b0 : List Byte} (hb : 16 ≤ b) (hl : b0.length < b) (cnt : Word) :
    pad b b0 cnt = b0 ++ [0x01] ++ List.replicate ((2 * b - 17 - b0.length) % b) 0
      ++ le64 (BitVec.ofNat 64 (cnt.toNat * 8)) ++ List.replicate 8 0 := by
  rw [pad, padZeros_eq_padCount hb, List.length_append, List.length_singleton, padCount_eq hb hl,
    zeros, lengthField_eq, List.append_assoc _ (le64 _)]

/-- A padded buffer is one block if the padding fits and two otherwise. -/
theorem pad_length {b : Nat} {b0 : List Byte} (hb : 16 ≤ b) (hl : b0.length < b) (cnt : Word) :
    (pad b b0 cnt).length = (if b0.length + 17 ≤ b then 1 else 2) * b := by
  rw [pad_eq hb hl]
  simp only [List.length_append, List.length_replicate, List.length_singleton, le64_length]
  split
  · next hone =>
    rw [Nat.mod_eq_sub_mod (show b ≤ 2 * b - 17 - b0.length by omega), Nat.mod_eq_of_lt (by omega)]
    omega
  · next htwo =>
    rw [Nat.mod_eq_of_lt (show 2 * b - 17 - b0.length < b by omega)]
    omega

/-- Finalisation absorbs the one or two blocks of the padded buffer (41_hash_pipeline.md R150). -/
theorem State.final_eq_absorbBlocks (s : State) (h : List Byte) {b0 : List Byte}
    (hl : b0.length < s.params.blockSize) (cnt : Word) :
    s.final h b0 cnt = s.absorbBlocks h (pad s.params.blockSize b0 cnt)
      (if b0.length + 17 ≤ s.params.blockSize then 1 else 2) := by
  have hlow := params_blockSize_low s.params
  rw [State.final, pad_length hlow hl, Nat.mul_div_cancel _ (by omega)]

/-! ### The statements -/

/-- Settles O33: HRESET's arm, with `H`'s reset value written out. -/
theorem hresetClearsTheHashState : Obligations.HresetClearsTheHashState := fun _ => rfl

/-- Settles O34: HWRITE's loop is absorption of the whole blocks of `buf ++ IN[0..len)`. -/
theorem hwriteAbsorbsWholeBlocks : Obligations.HwriteAbsorbsWholeBlocks := by
  intro s len hbuf hlen msg q
  have hmsg : s.buf ++ s.hwriteBytes len = msg := by rw [State.hwriteBytes_eq hlen]; rfl
  have hlength : msg.length = s.buf.length + len.toNat := by
    rw [List.length_append, State.readBytes_length]
  have hpush : s.pushBytes (s.chain, s.buf) (s.hwriteBytes len)
      = (s.absorbBlocks s.chain msg q, msg.drop (q * s.params.blockSize)) := by
    rw [State.pushBytes_eq_absorbMessage hbuf, hmsg, State.absorbMessage, hlength]
  refine ⟨_, rfl, congrArg Prod.fst hpush, congrArg Prod.snd hpush, ?count, rfl⟩
  case count =>
    have hwide : (len.zeroExtend 64).toNat = len.toNat := by
      rw [BitVec.toNat_setWidth, Nat.mod_eq_of_lt (by omega)]
    rw [← hwide]
    exact BitVec.toNat_add _ _

/-- Settles O35: HSUM stores the finalisation of the buffer, whose padding is one or two blocks. -/
theorem hsumWritesTheDigest : Obligations.HsumWritesTheDigest := by
  intro s hbuf b p
  have hdigest := s.final_length s.chain s.buf s.count
  refine ⟨_, rfl, ?digest, s.storeOut_complete_frame hdigest⟩
  case digest =>
    have hp : pad b s.buf s.count = p := pad_eq (params_blockSize_low s.params) hbuf s.count
    rw [← hp, ← s.final_eq_absorbBlocks s.chain hbuf s.count, ← hdigest]
    exact (State.readBytes_congr fun _ _ => State.readByte_complete _ _).trans
      (s.readBytes_storeBytes outBase _)

end Sys2Proof.Machine
end

section
/-! SUPPORT. The laws of the iterated hash (41_hash_pipeline.md R142 to R155): what absorption
compresses, the padding and its length field, and what a digest depends on. -/

namespace Sys2Proof.Machine

/-! ### The input of an absorption (41_hash_pipeline.md R142, R143) -/

/-- The first string gives the low bits of a concatenation (00_scope.md R7). -/
theorem bitOf_append (x y : List Byte) (i : Nat) :
    bitOf (x ++ y) i = if i < 8 * x.length then bitOf x i else bitOf y (i - 8 * x.length) := by
  split
  · rw [bitOf, bitOf, List.getD_append _ _ _ _ (by omega)]
  · have hbyte : (i - 8 * x.length) / 8 = i / 8 - x.length := by omega
    have hbit : (i - 8 * x.length) % 8 = i % 8 := by omega
    rw [bitOf, bitOf, hbyte, hbit, List.getD_append_right _ _ _ _ (by omega)]

theorem State.saltXor_length {s : State} {blk : List Byte}
    (hblk : blk.length = s.params.blockSize) : (s.saltXor blk).length = s.params.blockSize := by
  rw [State.saltXor, State.saltBytes, List.length_zipWith, State.readBytes_length, hblk,
    Nat.min_self]

/-- A byte of a salted block is the block's byte XOR the salt's in the window (10_state.md R31). -/
theorem State.saltXor_getD (s : State) {blk : List Byte} (hblk : blk.length = s.params.blockSize)
    {j : Nat} (hj : j < s.params.blockSize) :
    (s.saltXor blk).getD j 0 = blk.getD j 0 ^^^ s.readByte (saltBase + j) := by
  have hsalt : s.saltBytes.getD j 0 = s.readByte (saltBase + j) := by
    rw [State.saltBytes, State.readBytes_getD, if_pos hj]
  rw [← hsalt, State.saltXor]
  simp [List.getD_eq_getElem?_getD, State.saltBytes, hblk, hj]

/-- The message bits of an absorption: the salted block, then the chaining value. -/
theorem State.bitOf_saltXor_append (s : State) {blk : List Byte}
    (hblk : blk.length = s.params.blockSize) (h : List Byte) (i : Nat) :
    bitOf (s.saltXor blk ++ h) i =
      if i < 8 * s.params.blockSize then
        (blk.getD (i / 8) 0 ^^^ s.readByte (saltBase + i / 8)).getLsbD (i % 8)
      else (h.getD (i / 8 - s.params.blockSize) 0).getLsbD (i % 8) := by
  rw [bitOf_append, State.saltXor_length hblk]
  split
  · rw [bitOf, s.saltXor_getD hblk (by omega)]
  · have hbyte : (i - 8 * s.params.blockSize) / 8 = i / 8 - s.params.blockSize := by omega
    have hbit : (i - 8 * s.params.blockSize) % 8 = i % 8 := by omega
    rw [bitOf, hbyte, hbit]

/-- Word `k` of a packed result (40_compressor.md R114). -/
theorem u64_drop_packWords {n k : Nat} (hk : k < n) (f : Nat → Word) :
    u64 ((packWords n f).drop (8 * k)) = f k := by
  rw [u64, ← wordOf_byteOf (f k)]
  refine wordOf_congr fun t ht => ?_
  have hword : (8 * k + t) / 8 = k := by omega
  have hbyte : (8 * k + t) % 8 = t := by omega
  rw [List.getD_eq_getElem?_getD, List.getElem?_drop, ← List.getD_eq_getElem?_getD,
    packWords_getD _ _ _ (by omega), hword, hbyte]

/-! ### The length field (41_hash_pipeline.md R149) -/

theorem u64_le64_append (w : Word) (bs : List Byte) : u64 (le64 w ++ bs) = w := by
  conv_rhs => rw [← u64_le64 w]
  exact wordOf_congr fun t ht => List.getD_append _ _ _ _ (by rwa [le64_length])

/-! ### States that absorb alike (41_hash_pipeline.md R155) -/

/-- Two instances of one size whose absorption is the same function. -/
structure absorbsAlike (s t : State) : Prop where
  n_eq : t.params.n = s.params.n
  m_eq : t.params.m = s.params.m
  absorb_eq : ∀ h blk, t.absorb h blk = s.absorb h blk

theorem absorbsAlike.blockSize_eq {s t : State} (hst : absorbsAlike s t) :
    t.params.blockSize = s.params.blockSize := by
  rw [Params.blockSize, Params.blockSize, hst.n_eq, hst.m_eq]

theorem absorbsAlike.trans {s t u : State} (hst : absorbsAlike s t) (htu : absorbsAlike t u) :
    absorbsAlike s u :=
  ⟨htu.n_eq.trans hst.n_eq, htu.m_eq.trans hst.m_eq,
    fun h blk => (htu.absorb_eq h blk).trans (hst.absorb_eq h blk)⟩

theorem absorbsAlike.symm {s t : State} (hst : absorbsAlike s t) : absorbsAlike t s :=
  ⟨hst.n_eq.symm, hst.m_eq.symm, fun h blk => (hst.absorb_eq h blk).symm⟩

theorem absorbsAlike.absorbBlocks_eq {s t : State} (hst : absorbsAlike s t) (h p : List Byte)
    (q : Nat) : t.absorbBlocks h p q = s.absorbBlocks h p q := by
  induction q with
  | zero => rfl
  | succ q ih =>
    rw [State.absorbBlocks, State.absorbBlocks, ih, hst.absorb_eq, hst.blockSize_eq]

theorem absorbsAlike.final_eq {s t : State} (hst : absorbsAlike s t) (h b0 : List Byte)
    (cnt : Word) : t.final h b0 cnt = s.final h b0 cnt := by
  rw [State.final, State.final, hst.absorbBlocks_eq, hst.blockSize_eq]

theorem absorbsAlike.of_sameMatrix {s t : State} (hm : sameMatrix s t)
    (hsalt : t.saltBytes = s.saltBytes) : absorbsAlike s t where
  n_eq := by rw [hm.params_eq]
  m_eq := by rw [hm.params_eq]
  absorb_eq := State.absorb_congr hm.params_eq hm.lut_eq hsalt hm.entry_eq

/-- With a table built from the present matrix, absorption reads the salt and the matrix alone:
either datapath computes the matrix sums (40_compressor.md R118). -/
theorem absorbsAlike.of_lutFresh {s t : State} (hn : t.params.n = s.params.n)
    (hm : t.params.m = s.params.m) (hs : s.lutFresh) (ht : t.lutFresh)
    (hsalt : t.saltBytes = s.saltBytes)
    (hmat : ∀ k < s.params.n, ∀ i < s.params.m, t.matEntry k i = s.matEntry k i) :
    absorbsAlike s t where
  n_eq := hn
  m_eq := hm
  absorb_eq h blk := by
    rw [State.absorb, State.absorb, State.saltXor, State.saltXor, hsalt, State.compress,
      State.compress, hn]
    exact packWords_congr fun k hk => laneReadsOnlyItsBundle s t hn hm hs ht k hk (hmat k hk) _

/-! ### What a completion leaves alone (40_compressor.md R110) -/

theorem exec_params {i : Instr} {s t : State} (h : exec i s = .next t) : t.params = s.params := by
  obtain ⟨t', ht', hframe, -⟩ := exec_cases i s
  rw [h] at ht'
  cases ht'
  rw [hframe]

theorem exec_saltBytes {i : Instr} {s t : State} (h : exec i s = .next t) :
    t.saltBytes = s.saltBytes := by
  have hout := params_outputLen_high s.params
  rw [State.saltBytes, exec_params h]
  refine State.readBytes_congr fun j _ => exec_readByte h (.inr ?_)
  simp only [outBase, saltBase]
  omega

theorem exec_inBytes {i : Instr} {s t : State} (h : exec i s = .next t) :
    t.inBytes = s.inBytes := by
  have hout := params_outputLen_high s.params
  rw [State.inBytes, exec_params h]
  refine State.readBytes_congr fun j _ => exec_readByte h (.inr ?_)
  simp only [outBase, inBase]
  omega

/-- No command but COMMIT changes what an absorption reads. -/
theorem exec_absorbsAlike {i : Instr} {s t : State} (h : exec i s = .next t) (hi : i ≠ .commit) :
    absorbsAlike s t := by
  have hout := params_outputLen_high s.params
  obtain ⟨-, hlut⟩ := (exec_locked_lut h).resolve_right hi
  have hentry : ∀ k i, t.matEntry k i = s.matEntry k i :=
    State.matEntry_congr (exec_params h) fun a ha => exec_readByte h (.inr (by
      simp only [outBase, matBase] at ha ⊢
      omega))
  exact .of_sameMatrix ⟨exec_params h, hlut, fun k _ i _ => hentry k i⟩ (exec_saltBytes h)

/-! ### The completions of HWRITE and HSUM (41_hash_pipeline.md R145, R151) -/

theorem sameHash.symm {s t : State} (hst : sameHash s t) : sameHash t s :=
  ⟨hst.chain_eq.symm, hst.buf_eq.symm, hst.count_eq.symm⟩

theorem sameHash.trans {s t u : State} (hst : sameHash s t) (htu : sameHash t u) : sameHash s u :=
  ⟨htu.chain_eq.trans hst.chain_eq, htu.buf_eq.trans hst.buf_eq,
    htu.count_eq.trans hst.count_eq⟩

theorem sameHash.of_pair {s t : State} (hpair : (t.chain, t.buf) = (s.chain, s.buf))
    (hcount : t.count = s.count) : sameHash s t :=
  ⟨congrArg Prod.fst hpair, congrArg Prod.snd hpair, hcount⟩

theorem exec_hwrite_hash {len : BitVec 16} {s t : State} (h : exec (.hwrite len) s = .next t) :
    (t.chain, t.buf) = s.pushBytes (s.chain, s.buf) (s.hwriteBytes len)
      ∧ t.count = s.count + len.zeroExtend 64 := by
  cases h
  exact ⟨rfl, rfl⟩

/-- HSUM works on a copy of the hash state (41_hash_pipeline.md R152). -/
theorem exec_hsum_sameHash {s t : State} (h : exec .hsum s = .next t) : sameHash s t := by
  cases h
  exact ⟨rfl, rfl, rfl⟩

theorem exec_hsum_out {s t : State} (h : exec .hsum s = .next t) :
    t.readBytes outBase (8 * s.params.n) = s.final s.chain s.buf s.count := by
  cases h
  rw [← s.final_length s.chain s.buf s.count]
  exact (State.readBytes_congr fun _ _ => State.readByte_complete _ _).trans
    (s.readBytes_storeBytes outBase _)

/-- Equal hash states give equal digests in states that absorb alike. -/
theorem absorbsAlike.hsum_out {s t s' t' : State} (hst : absorbsAlike s t) (hhash : sameHash s t)
    (hs : exec .hsum s = .next s') (ht : exec .hsum t = .next t') :
    t'.readBytes outBase (8 * s.params.n) = s'.readBytes outBase (8 * s.params.n) := by
  rw [exec_hsum_out hs, ← hst.n_eq, exec_hsum_out ht, hst.final_eq, hhash.chain_eq, hhash.buf_eq,
    hhash.count_eq]

theorem State.hwriteBytes_zero (s : State) : s.hwriteBytes 0 = [] := List.take_zero

/-! ### The statements -/

/-- Settles O41: word `k` of the result is the matrix sum of the salted block and `H`. -/
theorem absorptionCompressesSaltedBlockThenChain :
    Obligations.AbsorptionCompressesSaltedBlockThenChain := by
  intro s hs h blk _ hblk k hk
  have hword : u64 ((s.absorb h blk).drop (8 * k)) = s.matSum (s.saltXor blk ++ h) k := by
    rw [State.absorb, State.compress, u64_drop_packWords hk, State.compressWord_eq_matSum hs _ hk]
  rw [hword, State.matSum, sigma64_selected_toNat]
  congr 2
  refine Finset.filter_congr fun i _ => ?_
  rw [s.bitOf_saltXor_append hblk]
  split <;> rfl

/-- Settles O43: HWRITE's loop over `P ++ Q` is its loop over `P` and then over `Q`, and the two
lengths add up. -/
theorem splitHwritesLeaveTheSameHashState : Obligations.SplitHwritesLeaveTheSameHashState := by
  intro s u w s' u' w' a b c hsum hlen hs hsu hmu hsaltu hu hsw hmw hsaltw hbytes hw
  obtain ⟨hpairs, hcounts⟩ := exec_hwrite_hash hs
  obtain ⟨hpairu, hcountu⟩ := exec_hwrite_hash hu
  obtain ⟨hpairw, hcountw⟩ := exec_hwrite_hash hw
  have hpushu := State.pushBytes_congr hmu.params_eq
    (absorbsAlike.of_sameMatrix hmu hsaltu).absorb_eq
  have hpushw := State.pushBytes_congr hmw.params_eq
    (absorbsAlike.of_sameMatrix hmw hsaltw).absorb_eq
  have hjoin : w.hwriteBytes c = s.hwriteBytes a ++ u.hwriteBytes b := by
    have hc : c.toNat ≤ s.params.inputLen := hlen
    rw [State.hwriteBytes_eq (by rw [hmw.params_eq]; exact hc),
      State.hwriteBytes_eq (show a.toNat ≤ s.params.inputLen by omega),
      State.hwriteBytes_eq (by rw [hmu.params_eq]; omega)]
    exact hbytes
  refine .of_pair ?pair ?count
  case pair =>
    calc (w'.chain, w'.buf)
        = s.pushBytes (s.chain, s.buf) (s.hwriteBytes a ++ u.hwriteBytes b) := by
          rw [hpairw, hpushw, hjoin, hsw.chain_eq, hsw.buf_eq]
      _ = s.pushBytes (u.chain, u.buf) (u.hwriteBytes b) := by
          rw [State.pushBytes_append, ← hpairs, hsu.chain_eq, hsu.buf_eq]
      _ = (u'.chain, u'.buf) := by rw [hpairu, hpushu]
  case count =>
    rw [hcountw, hcountu, hsw.count_eq, hsu.count_eq, hcounts, BitVec.add_assoc]
    congr 1
    apply BitVec.eq_of_toNat_eq
    simp only [BitVec.truncate_eq_setWidth, BitVec.toNat_add, BitVec.toNat_setWidth]
    omega

/-- Settles O45: the loop's zeros are R148's, and with them the length is one block or two. -/
theorem paddingFillsOneOrTwoBlocks : Obligations.PaddingFillsOneOrTwoBlocks := by
  intro b b0 cnt hb hl
  have hzero : le64 0 = List.replicate 8 0 := by decide
  have hlength := pad_length hb hl cnt
  refine ⟨?bytes, fun hone => ?one, fun htwo => ?two⟩
  case bytes => rw [hzero, pad_eq hb hl]
  case one => rw [hlength, if_pos hone, Nat.one_mul]
  case two => rw [hlength, if_neg (Nat.not_le.mpr htwo)]

/-- Settles O47: HSUM keeps the hash state and what an absorption reads, so the second digest is the
first. -/
theorem hsumIsRepeatable : Obligations.HsumIsRepeatable := by
  intro s t u hst htu
  have hhash := exec_hsum_sameHash hst
  exact ⟨hhash, (exec_absorbsAlike hst nofun).hsum_out hhash hst htu⟩

/-- Settles O48: after the first HSUM the HWRITE finds the hash state, the bytes of IN and the
absorption that it finds without it. -/
theorem hsumDoesNotDisturbLaterWrites : Obligations.HsumDoesNotDisturbLaterWrites := by
  intro s s1 s2 s3 r1 r2 len h1 h2 h3 g1 g2
  have hcopy := exec_hsum_sameHash h1
  have halike := exec_absorbsAlike h1 nofun
  obtain ⟨hpair, hcount⟩ := exec_hwrite_hash h2
  obtain ⟨gpair, gcount⟩ := exec_hwrite_hash g1
  have hwritten : sameHash r1 s2 := by
    refine .of_pair ?pair ?count
    case pair =>
      rw [hpair, gpair, State.pushBytes_congr (exec_params h1) halike.absorb_eq,
        State.hwriteBytes, exec_inBytes h1, hcopy.chain_eq, hcopy.buf_eq, State.hwriteBytes]
    case count => rw [hcount, gcount, hcopy.count_eq]
  have hsame : absorbsAlike r1 s2 :=
    (exec_absorbsAlike g1 nofun).symm.trans
      (halike.trans (exec_absorbsAlike h2 nofun))
  refine ⟨?hash, ?digest⟩
  case hash =>
    exact (exec_hsum_sameHash g2).symm.trans (hwritten.trans (exec_hsum_sameHash h3))
  case digest =>
    rw [← exec_params g1]
    exact hsame.hsum_out hwritten g2 h3

/-- Settles O49: a digest reads the hash state and absorbs, and absorption reads the salt and the
matrix alone. -/
theorem digestDependsOnlyOnHashStateSaltAndMatrix :
    Obligations.DigestDependsOnlyOnHashStateSaltAndMatrix := by
  intro s t hn hm hs ht hhash hsalt hmat
  have hblock : t.params.blockSize = s.params.blockSize := by
    rw [Params.blockSize, Params.blockSize, hn, hm]
  have hsaltBytes : t.saltBytes = s.saltBytes := by
    rw [State.saltBytes, hblock]
    exact State.readBytes_congr hsalt
  exact ⟨_, _, rfl, rfl,
    (absorbsAlike.of_lutFresh hn hm hs ht hsaltBytes hmat).hsum_out hhash rfl rfl⟩

/-- Settles O42: XOR with a zero byte is the identity, byte by byte. -/
theorem zeroSaltChangesNoBlock : Obligations.ZeroSaltChangesNoBlock := by
  intro s hzero blk hblk
  have hlength := (State.saltXor_length hblk).trans hblk.symm
  refine List.ext_getElem hlength fun j hj hj' => ?_
  have hj'' : j < s.params.blockSize := hblk ▸ hj'
  rw [← List.getD_eq_getElem _ 0 hj, s.saltXor_getD hblk hj'', List.getD_eq_getElem _ 0 hj']
  exact (congrArg (blk[j] ^^^ ·) (hzero j hj'')).trans BitVec.xor_zero

/-- Settles O44: HWRITE 0 passes every check of R111 when idle and locked, and its loop has no
turn. -/
theorem hwriteOfNothingKeepsTheHashState : Obligations.HwriteOfNothingKeepsTheHashState := by
  intro s
  refine ⟨fun hidle hlocked => ?accepted, ?completed⟩
  case accepted =>
    have hdecode : decodeWord 0x0000000000000004 = .ok (.hwrite 0) := by decide
    have hlen : s.params.lenFits 0 = true := decide_eq_true (Nat.zero_le _)
    have hquiet : s.presentError 0x0000000000000004 = none := by
      rw [State.presentError_eq, if_neg (not_not.mpr hidle), hlocked]
      simp only [wordError, hdecode, commandError, lockError, Instr.wellFormed, hlen, if_true]
    rw [s.hostWrite_register (r := .cmd) (by decide), State.writeRegion,
      State.present_eq_presentOutcome, hquiet]
    exact State.answered_respondOkay _ 0
  case completed =>
    have hcount : s.count + (0 : BitVec 16).zeroExtend 64 = s.count := by simp
    simp only [exec, execHwrite, State.hwriteBytes_zero, State.pushBytes_nil, hcount, State.complete]

/-- Settles O46: the field is `LE64` of the bit count and eight zero bytes. -/
theorem lengthFieldIsTheBitCount : Obligations.LengthFieldIsTheBitCount := by
  intro cnt
  refine ⟨lengthField_length cnt, ?count, ?high⟩
  case count => rw [lengthField_eq, u64_le64_append, BitVec.toNat_ofNat]
  case high => rw [lengthField_eq, List.drop_left' (le64_length _)]

end Sys2Proof.Machine
end

section
/-! SUPPORT. Errors, the bus response and progress (60_exceptions.md, 40_compressor.md R110): a
status flag is kept by every step but the write of 1 to its bit and a reset, an access error is
answered with ERROR, and what acceptance let in the engine can always complete. -/

namespace Sys2Proof.Machine

/-! ### Flags that only a write of 1 or a reset clears (10_state.md R24) -/

/-- A write that may clear the flag at bit `b` of STATUS: a 1 to that bit (10_state.md R24), or SRST
(70_reset_and_hazards.md R200). -/
def writeClears (b : Nat) (off : Offset) (size : Nat) (v : Word) : Prop :=
  size = 8 ∧ ((off = 0x018 ∧ v.getLsbD b = true) ∨ (off = 0x010 ∧ v.getLsbD 8 = true))

theorem writeClears_isNext {s : State} {addr size : Nat} {v : Word} {es : List Event}
    {off : Offset} {b : Nat} (he : s.events = .write addr size v :: es)
    (ho : s.params.offsetOf addr = some off) (h : writeClears b off size v) :
    s.statusClearIsNext b ∨ s.resetIsNext := by
  obtain ⟨rfl, ⟨rfl, hbit⟩ | ⟨rfl, hsrst⟩⟩ := h
  · exact .inl ⟨addr, v, es, he, ho, hbit⟩
  · exact .inr ⟨es, .inr ⟨addr, v, he, ho, hsrst⟩⟩

/-- What accesses and completions keep, unless the write clears bit `b` or resets, every step keeps
until that bit's clear or a reset. -/
theorem step_keeps_until_cleared {P : State → Prop} {b : Nat}
    (hread : ∀ u off size, P u → P (u.hostRead off size))
    (hwrite : ∀ u off size v, P u → writeClears b off size v ∨ P (u.hostWrite off size v))
    (hexec : ∀ i u t, P u → exec i u = .next t → P t)
    {s t : State} (hs : ∀ es, P { s with events := es }) (h : step s = .next t) :
    P t ∨ s.statusClearIsNext b ∨ s.resetIsNext := by
  obtain ⟨u, hu, hcases⟩ := step_cases h
  have hPu : P u := hu ▸ hs u.events
  rcases hcases with rfl | ⟨off, size, rfl⟩ | ⟨addr, size, off, v, es, he, ho, rfl⟩
    | ⟨es, he, -⟩ | ⟨-, i, -, -, hcomplete⟩
  · exact .inl hPu
  · exact .inl (hread u off size hPu)
  · rcases hwrite u off size v hPu with hclear | hkept
    · exact .inr (writeClears_isNext he ho hclear)
    · exact .inl hkept
  · exact .inr (.inr ⟨es, .inl he⟩)
  · exact .inl (hexec i u t hPu hcomplete)

/-! ### DONE (60_exceptions.md R178) -/

theorem State.hostRead_done (s : State) (off : Offset) (size : Nat) :
    (s.hostRead off size).done = s.done := by
  rcases s.hostRead_cases off size with ⟨e, -, heq⟩ | heq | ⟨d, heq⟩ <;> rw [heq]
  · exact s.accessError_done e off
  · exact s.respondUnspecified_done
  · exact s.respondOkay_done d

theorem State.present_done (s : State) (c : Word) : (s.present c).done = s.done := by
  rcases s.present_cases c with ⟨e, -, -, heq⟩ | ⟨-, -, heq⟩ <;> rw [heq]
  exact s.raise_done e _

theorem State.writeStatus_done (s : State) {v : Word} (h : v.getLsbD 1 = false) :
    (s.writeStatus v).done = s.done := by
  simp only [State.writeStatus_eq, h, Bool.not_false, Bool.and_true]

/-- A write keeps DONE unless it clears bit 1 or resets. -/
theorem State.hostWrite_done (s : State) (off : Offset) (size : Nat) (v : Word) :
    writeClears 1 off size v ∨ (s.hostWrite off size v).done = s.done := by
  rcases s.hostWrite_cases off size v with ⟨e, -, heq⟩ | ⟨hsize, hoff, heq⟩ | ⟨hsize, hoff, heq⟩
    | ⟨-, -, heq⟩ | ⟨-, -, -, -, heq⟩ <;> rw [heq]
  case inl => exact .inr (s.accessError_done e off)
  case inr.inl =>
    rcases s.writeCtrl_cases v with ⟨hsrst, -⟩ | ⟨-, hctrl⟩
    · exact .inl ⟨hsize, .inr ⟨hoff, hsrst⟩⟩
    · rw [hctrl]
      exact .inr rfl
  case inr.inr.inl =>
    cases hbit : v.getLsbD 1 with
    | true => exact .inl ⟨hsize, .inl ⟨hoff, hbit⟩⟩
    | false => exact .inr (s.writeStatus_done hbit)
  case inr.inr.inr.inl => exact .inr (s.present_done v)
  case inr.inr.inr.inr => exact .inr rfl

theorem exec_done {i : Instr} {s t : State} (h : exec i s = .next t) : t.done = true := by
  obtain ⟨t', ht', hframe, -⟩ := exec_cases i s
  rw [h] at ht'
  cases ht'
  rw [hframe]

/-! ### The error record (60_exceptions.md R172, R173) -/

/-- `u` has the error on record that `s` has; ERR_MULTI may have been set since. -/
structure keepsError (s u : State) : Prop where
  err_set : u.err = true
  errCode_eq : u.errCode = s.errCode
  errInfo_eq : u.errInfo = s.errInfo
  errMulti_kept : s.errMulti = true → u.errMulti = true

theorem keepsError.of_fields {s u t : State} (hu : keepsError s u) (herr : t.err = u.err)
    (hcode : t.errCode = u.errCode) (hinfo : t.errInfo = u.errInfo)
    (hmulti : t.errMulti = u.errMulti) : keepsError s t where
  err_set := herr.trans hu.err_set
  errCode_eq := hcode.trans hu.errCode_eq
  errInfo_eq := hinfo.trans hu.errInfo_eq
  errMulti_kept hm := hmulti.trans (hu.errMulti_kept hm)

/-- A later error only sets ERR_MULTI. -/
theorem keepsError.raise {s u : State} (hu : keepsError s u) (e : ErrorCode) (x : BitVec 32) :
    keepsError s (u.raise e x) := by
  rw [State.raise_of_err hu.err_set]
  exact ⟨hu.err_set, hu.errCode_eq, hu.errInfo_eq, fun _ => rfl⟩

theorem keepsError.accessError {s u : State} (hu : keepsError s u) (e : ErrorCode) (off : Offset) :
    keepsError s (u.accessError e off) :=
  (hu.raise e (off.zeroExtend 32)).of_fields rfl rfl rfl rfl

theorem keepsError.hostRead {s u : State} (hu : keepsError s u) (off : Offset) (size : Nat) :
    keepsError s (u.hostRead off size) := by
  rcases u.hostRead_cases off size with ⟨e, -, heq⟩ | heq | ⟨d, heq⟩ <;> rw [heq]
  · exact hu.accessError e off
  · exact hu.of_fields rfl rfl rfl rfl
  · exact hu.of_fields rfl rfl rfl rfl

theorem keepsError.present {s u : State} (hu : keepsError s u) (c : Word) :
    keepsError s (u.present c) := by
  rcases u.present_cases c with ⟨e, -, -, heq⟩ | ⟨-, -, heq⟩ <;> rw [heq]
  · exact hu.raise e _
  · exact hu.of_fields rfl rfl rfl rfl

theorem keepsError.writeStatus {s u : State} (hu : keepsError s u) {v : Word}
    (h : v.getLsbD 2 = false) : keepsError s (u.writeStatus v) := by
  simp only [State.writeStatus_eq, h, Bool.not_false, Bool.and_true, Bool.false_eq_true, if_false]
  exact hu.of_fields rfl rfl rfl rfl

/-- A write keeps the error on record unless it clears bit 2 or resets. -/
theorem keepsError.hostWrite {s u : State} (hu : keepsError s u) (off : Offset) (size : Nat)
    (v : Word) : writeClears 2 off size v ∨ keepsError s (u.hostWrite off size v) := by
  rcases u.hostWrite_cases off size v with ⟨e, -, heq⟩ | ⟨hsize, hoff, heq⟩ | ⟨hsize, hoff, heq⟩
    | ⟨-, -, heq⟩ | ⟨-, -, -, -, heq⟩ <;> rw [heq]
  case inl => exact .inr (hu.accessError e off)
  case inr.inl =>
    rcases u.writeCtrl_cases v with ⟨hsrst, -⟩ | ⟨-, hctrl⟩
    · exact .inl ⟨hsize, .inr ⟨hoff, hsrst⟩⟩
    · rw [hctrl]
      exact .inr (hu.of_fields rfl rfl rfl rfl)
  case inr.inr.inl =>
    cases hbit : v.getLsbD 2 with
    | true => exact .inl ⟨hsize, .inl ⟨hoff, hbit⟩⟩
    | false => exact .inr ((hu.writeStatus hbit).of_fields rfl rfl rfl rfl)
  case inr.inr.inr.inl => exact .inr ((hu.present v).of_fields rfl rfl rfl rfl)
  case inr.inr.inr.inr => exact .inr (hu.of_fields rfl rfl rfl rfl)

theorem keepsError.exec {i : Instr} {s u t : State} (hu : keepsError s u)
    (h : exec i u = .next t) : keepsError s t := by
  obtain ⟨t', ht', hframe, -⟩ := exec_cases i u
  rw [h] at ht'
  cases ht'
  rw [hframe]
  exact hu.of_fields rfl rfl rfl rfl

/-! ### Accesses that raise no error (60_exceptions.md R177) -/

/-- `t` has no error flag that `s` has not. -/
def raisesNoError (s t : State) : Prop :=
  (t.err = true → s.err = true) ∧ (t.errMulti = true → s.errMulti = true)

theorem State.writeCtrl_raisesNoError (s : State) (v : Word) : raisesNoError s (s.writeCtrl v) := by
  rcases s.writeCtrl_cases v with ⟨-, heq⟩ | ⟨-, heq⟩ <;> rw [heq]
  · exact ⟨nofun, nofun⟩
  · exact ⟨id, id⟩

theorem State.writeStatus_raisesNoError (s : State) (v : Word) :
    raisesNoError s (s.writeStatus v) := by
  rw [State.writeStatus_eq]
  exact ⟨fun h => (Bool.and_eq_true_iff.mp h).1, fun h => (Bool.and_eq_true_iff.mp h).1⟩

/-- A write is an access error, or it is answered with OKAY and raises nothing but through CMD. -/
theorem State.hostWrite_answer (s : State) (off : Offset) (size : Nat) (v : Word) :
    ((∃ d, (s.hostWrite off size v).response = some ⟨true, d⟩) ∧
      (¬ (off = 0x028 ∧ size = 8) → raisesNoError s (s.hostWrite off size v))) ∨
    (∃ e, e ≠ .none ∧ s.hostWrite off size v = s.accessError e off) := by
  rcases s.hostWrite_cases off size v with herror | ⟨-, -, heq⟩ | ⟨-, -, heq⟩
    | ⟨hsize, hoff, heq⟩ | ⟨-, -, -, -, heq⟩
  case inl => exact .inr herror
  all_goals
    rw [heq]
    refine .inl ⟨⟨0, rfl⟩, fun hcmd => ?_⟩
  case inr.inl => exact s.writeCtrl_raisesNoError v
  case inr.inr.inl => exact s.writeStatus_raisesNoError v
  case inr.inr.inr.inl => exact absurd ⟨hoff, hsize⟩ hcmd
  case inr.inr.inr.inr => exact ⟨id, id⟩

/-! ### Progress (40_compressor.md R110, R111) -/

/-- A word that passes the acceptance checks is a command. -/
theorem decodeWord_of_wordError_none {p : Params} {l : Bool} {c : Word}
    (h : wordError p l c = none) : ∃ i, decodeWord c = .ok i := by
  cases hd : decodeWord c with
  | ok i => exact ⟨i, rfl⟩
  | error e =>
    simp only [wordError, hd] at h
    cases h

/-- What is pending was admitted, so the engine does not refuse it. -/
theorem State.Inv.fetch_ne_refuse {s : State} (hs : s.Inv) (r : Refusal) :
    s.fetch ≠ .refuse r := by
  rcases s.fetch_cases with ⟨-, hf⟩ | ⟨c, i, -, -, hf⟩ | ⟨c, e, hp, hd, -⟩
  · rw [hf]; nofun
  · rw [hf]; nofun
  · obtain ⟨i, hi⟩ := decodeWord_of_wordError_none (hs.pending_admitted c hp)
    rw [hd] at hi
    cases hi

theorem State.Inv.react_ne_refuse {s : State} (hs : s.Inv) (e : Event) (r : Refusal) :
    s.react e ≠ .refuse r := by
  cases e with
  | complete => exact hs.fetch_ne_refuse r
  | read | write | hardReset => nofun

theorem State.Inv.nextMove_ne_refuse {s : State} (hs : s.Inv) (r : Refusal) :
    s.nextMove ≠ .refuse r := by
  cases he : s.events with
  | nil => rw [State.nextMove_of_no_event he]; exact hs.fetch_ne_refuse r
  | cons e es => rw [State.nextMove_of_event he]; exact (hs.events es).react_ne_refuse e r

/-! ### The statements -/

/-- Settles O6: the two branches of error entry. -/
theorem firstErrorIsRecordedAndLaterOnesCounted :
    Obligations.FirstErrorIsRecordedAndLaterOnesCounted :=
  fun _ code info => ⟨fun h => State.raise_of_quiet h code info,
    fun h => State.raise_of_err h code info⟩

/-- Settles O8: every completion leaves DONE set, and no step drops it but a clear of bit 1 or a
reset. -/
theorem doneIsSetByCompletionAndSticky : Obligations.DoneIsSetByCompletionAndSticky := by
  refine ⟨fun _ _ _ h => exec_done h, fun s t hdone hstep hlost => ?sticky⟩
  case sticky =>
    have hkept : t.done = true ∨ s.statusClearIsNext 1 ∨ s.resetIsNext :=
      step_keeps_until_cleared (P := fun u => u.done = true)
        (fun u off size hu => (u.hostRead_done off size).trans hu)
        (fun u off size v hu => (u.hostWrite_done off size v).imp_right (·.trans hu))
        (fun _ _ _ _ hexec => exec_done hexec) (fun _ => hdone) hstep
    exact hkept.resolve_left (by simp [hlost])

/-- Settles O9: accesses and completions keep the error on record, but for a clear of bit 2 and
SRST. -/
theorem errorRecordIsKeptUntilCleared : Obligations.ErrorRecordIsKeptUntilCleared := by
  intro s t herr hstep
  have hkept : keepsError s t ∨ s.statusClearIsNext 2 ∨ s.resetIsNext :=
    step_keeps_until_cleared (P := keepsError s) (fun _ off size hu => hu.hostRead off size)
      (fun _ off size v hu => hu.hostWrite off size v) (fun _ _ _ hu hexec => hu.exec hexec)
      (fun _ => ⟨herr, rfl, rfl, id⟩) hstep
  exact hkept.imp_left fun h => ⟨h.err_set, h.errCode_eq, h.errInfo_eq, h.errMulti_kept⟩

/-- Settles O11: each kind of access is an access error or is answered with OKAY, and a write of CMD
is always answered with OKAY. -/
theorem busResponseTellsAccessErrors : Obligations.BusResponseTellsAccessErrors := by
  refine ⟨fun s off size => ?read, fun s off size v => ?write, fun s c => ?command⟩
  case read =>
    rcases s.hostRead_cases off size with ⟨e, he, heq⟩ | heq | ⟨d, heq⟩ <;> rw [heq]
    · exact .inr ⟨e, he, rfl⟩
    · exact .inl ⟨_, rfl, rfl, rfl⟩
    · exact .inl ⟨d, rfl, rfl, rfl⟩
  case write =>
    refine (s.hostWrite_answer off size v).imp_right fun ⟨e, he, heq⟩ => ⟨e, he, ?_⟩
    rw [heq]
    exact s.answered_accessError e off
  case command =>
    rw [s.hostWrite_register (r := .cmd) (by decide)]
    exact ⟨0, rfl⟩

/-- Settles O56: the one move without a next state is the engine's refusal, and under the invariant
no move is a refusal. -/
theorem noStepFromTheInvariantStops : Obligations.NoStepFromTheInvariantStops := by
  intro s hs
  cases hm : s.nextMove with
  | advance t => exact ⟨t, step_of_advance hm⟩
  | run i u =>
    obtain ⟨t, ht, -⟩ := exec_cases i u
    exact ⟨t, (step_of_run hm).trans ht⟩
  | refuse r => exact absurd hm (hs.nextMove_ne_refuse r)

end Sys2Proof.Machine
end

section
/-! SUPPORT. The two resets and the matrix's unspecified values (70_reset_and_hazards.md R201 to
R204): what a byte of the arrays reads as after each reset, and that a written MAT byte depends on
no unspecified value. -/

namespace Sys2Proof.Machine

/-! ### What a byte reads as (70_reset_and_hazards.md R201, R203) -/

/-- A listed byte is read as written, whatever the state's unspecified values are. -/
theorem State.readByte_of_listed {s : State} {a : Nat} {v : Byte}
    (h : Memory.lookup s.mem a = some v) : s.readByte a = v := by
  simp only [State.readByte, h]

/-- An unlisted MAT byte is its byte of the word's unspecified value. -/
theorem State.readByte_matrix_of_unlisted {s : State} {w j : Nat} (hj : j < 8)
    (h : Memory.lookup s.mem (matBase + 8 * w + j) = none) :
    s.readByte (matBase + 8 * w + j) = byteOf (Config.matUnwritten s.hardResets w) j := by
  have hu : Memory.unlisted (matBase + 8 * w + j) = none := if_neg (by omega)
  have hword : (matBase + 8 * w + j - matBase) / 8 = w := by omega
  have hbyte : (matBase + 8 * w + j - matBase) % 8 = j := by omega
  simp only [State.readByte, h, State.unlistedByte, hu, hword, hbyte]

/-- A byte's value is its listing and the number of the hard reset. -/
theorem State.readByte_eq_of_lookup_eq {s t : State} {a : Nat}
    (hl : Memory.lookup t.mem a = Memory.lookup s.mem a) (hr : t.hardResets = s.hardResets) :
    t.readByte a = s.readByte a := by
  simp only [State.readByte, State.unlistedByte, hl, hr]

/-- In a completely written matrix every byte of an entry is listed. -/
theorem State.matComplete.entry_listed {s : State} (hs : s.matComplete) {k i j : Nat}
    (hk : k < s.params.n) (hi : i < s.params.m) (hj : j < 8) :
    ∃ v, Memory.lookup s.mem (matBase + 8 * (k * s.params.m + i) + j) = some v :=
  Option.isSome_iff_exists.mp (hs _ (matIndex_lt hk hi) j hj)

/-! ### The soft reset (70_reset_and_hazards.md R202) -/

theorem State.softReset_readByte_below_matrix (s : State) {a : Nat} (ha : a < matBase) :
    s.softReset.readByte a = 0 := by
  refine State.readByte_eq_zero_of_unlisted ?_ ha
  rw [State.softReset_mem, Memory.lookup_matrixPart, if_neg (by omega)]

theorem State.softReset_readByte_matrix (s : State) {a : Nat} (ha : matBase ≤ a) :
    s.softReset.readByte a = s.readByte a := by
  refine State.readByte_eq_of_lookup_eq ?_ s.softReset_hardResets
  rw [State.softReset_mem, Memory.lookup_matrixPart, if_pos ha]

/-! ### The hard reset (70_reset_and_hazards.md R201, R203) -/

theorem step_hardReset {s : State} {es : List Event} (h : s.events = .hardReset :: es) :
    step s = .next ({ s with events := es } : State).hardReset :=
  step_of_advance (State.nextMove_of_event h)

theorem State.hardReset_readByte_below_matrix (s : State) {a : Nat} (ha : a < matBase) :
    s.hardReset.readByte a = 0 :=
  State.readByte_eq_zero_of_unlisted rfl ha

theorem State.hardReset_readByte_matrix (s : State) (w : Nat) {j : Nat} (hj : j < 8) :
    s.hardReset.readByte (matBase + 8 * w + j)
      = byteOf (Config.matUnwritten (s.hardResets + 1) w) j :=
  State.readByte_matrix_of_unlisted hj rfl

theorem State.resetFor_inv (p : Params) : (State.resetFor p).Inv :=
  State.Inv.of_reset rfl (State.resetFor_mem_wf p) (fun _ hc => by cases hc) fun _ _ _ _ => rfl

/-! ### The statements -/

/-- Settles O27: the CTRL write is a soft reset answered OKAY, which keeps exactly the listed bytes
of MAT and the number of the hard reset. -/
theorem softResetKeepsOnlyTheMatrix : Obligations.SoftResetKeepsOnlyTheMatrix := by
  intro s v hv t
  obtain ⟨-, hsoft⟩ := ctrlWriteSetsEnablesOrResets s v
  obtain ⟨d, ht⟩ : s.softReset.answered true t := hsoft hv
  have hread (a : Nat) : t.readByte a = s.softReset.readByte a := by
    rw [ht]
    exact State.readByte_congr rfl rfl a
  clear_value t
  subst ht
  refine ⟨rfl, rfl, rfl, rfl, rfl, rfl, rfl, rfl, rfl, rfl, rfl, rfl, rfl, ⟨d, rfl⟩,
    fun a ha => ?below, fun a ha => ?matrix⟩
  case below => exact (hread a).trans (s.softReset_readByte_below_matrix ha)
  case matrix => exact (hread a).trans (s.softReset_readByte_matrix ha)

/-- Settles O51: every byte of an entry is listed, and a listed byte is read without the number of
the hard reset. -/
theorem completeMatrixHoldsNoUnspecifiedValue :
    Obligations.CompleteMatrixHoldsNoUnspecifiedValue := by
  intro s r hs k hk i hi
  refine State.loadWord_congr fun j hj => ?_
  obtain ⟨v, hv⟩ := hs.entry_listed hk hi hj
  calc ({ s with hardResets := r } : State).readByte (matBase + 8 * (k * s.params.m + i) + j)
    _ = v := State.readByte_of_listed hv
    _ = s.readByte (matBase + 8 * (k * s.params.m + i) + j) := (State.readByte_of_listed hv).symm

/-- Settles O28: the step is the hard reset, after which no byte is listed. -/
theorem hardResetClearsEverything : Obligations.HardResetClearsEverything := by
  intro s es he
  refine ⟨_, step_hardReset he, rfl, rfl, rfl, rfl, rfl, rfl, rfl, rfl, rfl, rfl, rfl, rfl, rfl,
    rfl, rfl, fun a ha => ?below, fun w j hj => ?matrix⟩
  case below => exact State.hardReset_readByte_below_matrix _ ha
  case matrix => exact State.hardReset_readByte_matrix _ w hj

/-- Settles O55: the reference instance is one of the instances. -/
theorem resetMeetsTheInvariant : Obligations.ResetMeetsTheInvariant :=
  ⟨State.resetFor_inv, State.resetFor_inv Params.reference⟩

end Sys2Proof.Machine
end

section
/-! SUPPORT. Reads that answer with a free value of the model: of COUNT, BUFLEN and OUT while busy
(20_memory.md R70), and of a MAT word that nothing has written since the hard reset
(70_reset_and_hazards.md R203). -/

namespace Sys2Proof.Machine

/-! ### Reads while busy (20_memory.md R70) -/

/-- The ranges that R70 leaves unspecified are COUNT, BUFLEN and the OUT window. -/
theorem region_unspecifiedWhileBusy {p : Params} {off : Offset}
    (h : off = 0x030 ∨ off = 0x038 ∨ (0x1000 ≤ off.toNat ∧ off.toNat < 0x1000 + 8 * p.n)) :
    ∃ r, p.region off.toNat = some r ∧ r.unspecifiedWhileBusy = true := by
  rcases h with rfl | rfl | hout
  · exact ⟨.count, region_register p (by decide), rfl⟩
  · exact ⟨.buflen, region_register p (by decide), rfl⟩
  · exact ⟨.out, region_of_out hout, rfl⟩

/-- While busy, a read that R70 names is answered with the next free value. -/
theorem State.readRegion_busy {s : State} (hbusy : s.pending ≠ none) {r : Region}
    (hr : r.unspecifiedWhileBusy = true) (off : Nat) :
    s.readRegion r off = s.respondUnspecified := by
  rw [State.readRegion, State.busy_of_pending hbusy, hr, Bool.and_true, if_pos rfl]

/-! ### Unwritten MAT words (20_memory.md R63, 70_reset_and_hazards.md R203) -/

/-- The offset of a MAT word fits the window of SHC. -/
theorem matWordOffset_toNat {p : Params} {w : Nat} (hw : w < p.matWords) :
    (BitVec.ofNat 28 (matBase + 8 * w)).toNat = matBase + 8 * w := by
  have hmax := params_matrix_high p
  have hbase : matBase = 2 ^ 27 := rfl
  rw [BitVec.toNat_ofNat, Nat.mod_eq_of_lt (by omega)]

/-- A MAT word with no listed byte is the free value that the hard reset gave it. -/
theorem State.matWord_of_unlisted {s : State} {w : Nat}
    (h : ∀ j < 8, Memory.lookup s.mem (matBase + 8 * w + j) = none) :
    s.matWord w = Config.matUnwritten s.hardResets w :=
  calc s.matWord w
    _ = wordOf fun j => s.readByte (matBase + 8 * w + j) := rfl
    _ = wordOf (byteOf (Config.matUnwritten s.hardResets w)) :=
      wordOf_congr fun j hj => State.readByte_matrix_of_unlisted hj (h j hj)
    _ = Config.matUnwritten s.hardResets w := wordOf_byteOf _

/-- A read of a MAT word is answered with that word, busy or not. -/
theorem State.hostRead_matWord {s : State} {w : Nat} (hw : w < s.params.matWords) :
    s.hostRead (BitVec.ofNat 28 (matBase + 8 * w)) 8 = s.respondOkay (s.matWord w) := by
  have hoff := matWordOffset_toNat hw
  have hbase : matBase % 8 = 0 := rfl
  have hregion : s.params.region (BitVec.ofNat 28 (matBase + 8 * w)).toNat = some .mat :=
    region_of_mat (by omega)
  rw [State.hostRead_operand (by omega) (.inr (.inr hregion)), hoff, State.matWord]

/-! ### The statements -/

/-- Settles O18: the busy arm of the read rule for the ranges that R70 names, and the read of an
operand window, which does not look at BUSY. -/
theorem busyReadsOfResultsAreUnspecified : Obligations.BusyReadsOfResultsAreUnspecified := by
  refine fun s off ha => ⟨fun hbusy hoff => ?result, fun hoff => ?operand⟩
  case result =>
    obtain ⟨r, hregion, hunspecified⟩ := region_unspecifiedWhileBusy hoff
    rw [State.hostRead_of_region ha hregion, State.readRegion_busy hbusy hunspecified]
    rfl
  case operand =>
    exact ⟨s.loadWord off.toNat, State.hostRead_operand ha (region_operand hoff),
      fun t ht => s.loadWord_byte _ ht⟩

/-- Settles O50: the read is answered with the MAT word, all of whose bytes are unlisted. -/
theorem unwrittenMatrixWordReadsOneFixedValue :
    Obligations.UnwrittenMatrixWordReadsOneFixedValue := by
  intro s w hw hunlisted
  calc (s.hostRead (BitVec.ofNat 28 (matBase + 8 * w)) 8).response
    _ = (s.respondOkay (s.matWord w)).response := congrArg _ (State.hostRead_matWord hw)
    _ = some ⟨true, s.matWord w⟩ := s.respondOkay_response _
    _ = some ⟨true, Config.matUnwritten s.hardResets w⟩ := by
      rw [State.matWord_of_unlisted hunlisted]

end Sys2Proof.Machine
end
